-- ==== Sys2Proof/Config.lean ====
section
/-! DEFINITION. The implementation parameters of `00_scope.md` R5, one named constant each (decision D2),
and the parameters that R5 leaves OPEN, as constants without a body. The widths `ACC_W` = 32,
`IDX_W` = `SAMPLE_W` = `FC_W` = 8 and `CMD_W` = 40 are the widths of the types of `Word.lean`. -/

namespace Sys2Proof.Config

/-- `IDX_SHIFT`: the right shift that derives the table index from the accumulator (R5, R101). -/
abbrev idxShift : Nat := 24

/-- `WT_LEN`: entries per wavetable (R5, R61). -/
abbrev wtLen : Nat := 256

/-- `N_WAVES`: wavetables in the ROM (R5, R61). -/
abbrev nWaves : Nat := 9

/-- `DS_MAX`: the largest depth shift (R5, R23). -/
abbrev dsMax : Nat := 8

/-- `N_MODES`: the operating modes (R5, R135). -/
abbrev nModes : Nat := 4

/-- `MODE_BASE[Off]` (R5, R139). -/
abbrev modeBaseOff : Nat := 0

/-- `MODE_BASE[Fx]` (R5, R139). -/
abbrev modeBaseFx : Nat := 50

/-- `MODE_BASE[Drone]` (R5, R139). -/
abbrev modeBaseDrone : Nat := 10

/-- `MODE_BASE[Tune]` (R5, R139). -/
abbrev modeBaseTune : Nat := 0

/-- `TICK_DIV`: system-clock periods per tick (R5, R145). -/
abbrev tickDiv : Nat := 510

/-- `TC_PERIOD`: ticks per raised flag (R5, R147). -/
abbrev tcPeriod : Nat := 125

/-- `CR_THRESH`: the control cycle is due when the flag count exceeds this (R5, R33). -/
abbrev crThresh : Nat := 25

/-- The value at which the flag count saturates, `2^FC_W - 1` (R5, R148). -/
abbrev fcMax : Nat := 255

/-- `WT`, OPEN (R5, R111, U3): the ROM contents, a sample for every table and index. It has no body,
so no proof can assume a byte of it (assumption log 5). -/
opaque waveTable : Fin nWaves → BitVec 8 → BitVec 8

/-- `F_CLK`, OPEN (R5, R215, U7): the system clock frequency in Hz. No operation reads it. DESIGN CHOICE:
the spec gives it no type; here it is a rational number of Hz, of any size and sign (assumption log 13). -/
opaque fClk : ℚ

/-- `BASE_A`, OPEN (R5, R173, U4): the operand of the `SETBL A` with which the intended host writes channel
A's base level. No operation reads it. DESIGN CHOICE: the spec gives it no width; here it is a 32-bit word,
every operand that `SETBL` takes (R127; assumption log 13). -/
opaque baseA : BitVec 32

end Sys2Proof.Config
end

