-- ==== Sys2Proof/Word.lean ====
section
/-! DEFINITION. The bit-vector types of the block (`00_scope.md` R5, R6; `30_encoding.md` R80, R81, R87). -/

namespace Sys2Proof

/-- u32: a phase accumulator, a tuning word, the DATA field of a command (`ACC_W` = 32). -/
abbrev Word := BitVec 32

/-- u8: a sample, a table index, a base level, a duty value, the flag count. -/
abbrev Byte := BitVec 8

/-- A command word `{OP, RSV, CH, DATA}` (R81, `CMD_W` = 40). -/
abbrev CommandWord := BitVec 40

/-- A clock-level step word `{rst, cmd_valid, cmd}` (R87), one per rising clock edge. -/
abbrev StepWord := BitVec 42

end Sys2Proof
end

