-- ==== Sys2Proof/Syntax.lean ====
section
/-! DEFINITION. The ten operations of the block (`00_scope.md` R4, `30_encoding.md` R84), one constructor
per row of the opcode table, the seven of them that a command word can carry, and the inputs at the
block's pins that carry them. -/

namespace Sys2Proof

/-- The two channels: A has number 0 and B number 1 (R8, R90). -/
inductive Channel where
  | a
  | b
deriving DecidableEq, Repr

/-- The seven host commands (R84), the operations that a command word decodes to. -/
inductive Command where
  | nop
  | settw (c : Channel) (v : Word)
  | setds (c : Channel) (v : Word)
  | setbl (c : Channel) (v : Word)
  | wstep (c : Channel)
  | mstep
  | crclr
deriving DecidableEq, Repr

/-- The ten operations, one constructor per row of the opcode table (R4, R84). The operands of a
command are its fields `CH` and `DATA`; those of `CLK` are the pins `cmd_valid` and `cmd` as sampled at
the edge (R145). -/
inductive Instr where
  | nop
  | settw (c : Channel) (v : Word)
  | setds (c : Channel) (v : Word)
  | setbl (c : Channel) (v : Word)
  | wstep (c : Channel)
  | mstep
  | crclr
  | reset
  | clk (valid : Bool) (cmd : CommandWord)
  | tick
deriving DecidableEq, Repr

/-- One input from outside the block: a command word as an event of its own, a clock edge with the
pins `rst`, `cmd_valid` and `cmd` (R87), or the tick event of the event-level model, which no bit
pattern selects (R87, R154). -/
inductive Input where
  | command (w : CommandWord)
  | edge (w : StepWord)
  | tick
deriving DecidableEq, Repr

end Sys2Proof
end

