-- ==== Sys2Proof/WellFormed.lean ====
section
/-! DEFINITION. Well-formed operations: what a host that keeps to the spec presents (`30_encoding.md` R81,
R85). Every operand of every command is accepted (R86), so the only operand with anything to check is the
raw command word on the pins of a `CLK`. NO MEANING DEPENDS ON THIS CHECK: the block performs every word
(R82, R85, R86); assumption log 16. -/

namespace Sys2Proof

/-- The bits of a command word that the command with operation code `op` ignores (R82): `RSV` always,
`CH` and `DATA` where the command has no such operand. -/
def ignoredMask (op : BitVec 4) : CommandWord :=
  match op.toNat with
  | 1 => 0x0E00000000
  | 2 => 0x0E00000000
  | 3 => 0x0E00000000
  | 4 => 0x0EFFFFFFFF
  | _ => 0x0FFFFFFFFF

/-- `OP` is one of the codes 0x0 to 0x6 (R84, R85). -/
def assignedCode (w : CommandWord) : Bool :=
  decide ((w.extractLsb' 36 4).toNat ≤ 6)

/-- The canonical form: every ignored bit is zero (R81). -/
def canonicalWord (w : CommandWord) : Bool :=
  decide (w &&& ignoredMask (w.extractLsb' 36 4) = 0)

/-- What the spec asks of the host that presents an operation: a command on the pins of a clock edge has
an assigned code (R85, "the host should not issue reserved codes") and is in canonical form (R81). -/
def Instr.wellFormed : Instr → Bool
  | .nop => true
  | .settw _ _ => true
  | .setds _ _ => true
  | .setbl _ _ => true
  | .wstep _ => true
  | .mstep => true
  | .crclr => true
  | .reset => true
  | .clk valid cmd => !valid || (assignedCode cmd && canonicalWord cmd)
  | .tick => true

end Sys2Proof
end

