-- ==== Sys2Proof/Decode.lean ====
section
/-! DEFINITION. The decoder and the encoder of command words and step words (`30_encoding.md` R81 to R87).
The decoder looks at `OP` only to pick the operation (R82); every 40-bit word decodes to one of the seven
commands or to a reserved code, which is rejected by name (R85). -/

namespace Sys2Proof

/-- Why a word is no operation of the table: its `OP` is one of the reserved codes 0x7 to 0xF (R85). -/
inductive DecodeError where
  | reservedOp (op : BitVec 4)
deriving DecidableEq, Repr

/-- `OP = cmd[39:36]` (R82). -/
def opField (w : CommandWord) : BitVec 4 := w.extractLsb' 36 4

/-- `CH = cmd[32]`: 0 is channel A, 1 is channel B (R82, R8). -/
def chField (w : CommandWord) : Channel := if w.getLsbD 32 then .b else .a

/-- `DATA = cmd[31:0]` (R82). -/
def dataField (w : CommandWord) : Word := w.extractLsb' 0 32

/-- The command a command word stands for (R82, R84). -/
def decodeCommand (w : CommandWord) : Except DecodeError Command :=
  match (opField w).toNat with
  | 0 => .ok .nop
  | 1 => .ok (.settw (chField w) (dataField w))
  | 2 => .ok (.setds (chField w) (dataField w))
  | 3 => .ok (.setbl (chField w) (dataField w))
  | 4 => .ok (.wstep (chField w))
  | 5 => .ok .mstep
  | 6 => .ok .crclr
  | _ => .error (.reservedOp (opField w))

/-- A command as an operation of the event-level model (R4). -/
def Instr.ofCommand : Command → Instr
  | .nop => .nop
  | .settw c v => .settw c v
  | .setds c v => .setds c v
  | .setbl c v => .setbl c v
  | .wstep c => .wstep c
  | .mstep => .mstep
  | .crclr => .crclr

/-- The operation a clock edge performs (R87): `rst = 1` is `RESET`, all else ignored; `rst = 0` is
`CLK` with the pins `cmd_valid` and `cmd`. -/
def decodeStepWord (w : StepWord) : Instr :=
  if w.getLsbD 41 then .reset else .clk (w.getLsbD 40) (w.extractLsb' 0 40)

/-- The operation an input performs, or the reserved code it carries. -/
def decodeInput : Input → Except DecodeError Instr
  | .command w => (decodeCommand w).map Instr.ofCommand
  | .edge w => .ok (decodeStepWord w)
  | .tick => .ok .tick

/-- An instruction of the opcode table given as `nbits` bits of `w`: a command word (format C, 40 bits) or
a step word (format EVT, 42 bits, 48 in whole bytes). -/
def inputOfWord (nbits w : Nat) : Input :=
  if nbits ≤ 40 then .command (BitVec.ofNat 40 w) else .edge (BitVec.ofNat 42 w)

/-- The instruction the decoder reads from the bits `w` of a row of the opcode table. The rows CLK and
TICK have the same word; a clock edge is `CLK` (R87, assumption log 4). -/
def decodeTableWord (nbits w : Nat) : Option Instr :=
  (decodeInput (inputOfWord nbits w)).toOption

/-- The bit of the `CH` field: A = 0, B = 1 (R8). -/
def chBit : Channel → BitVec 1
  | .a => 0#1
  | .b => 1#1

/-- `{OP, RSV, CH, DATA}` with `RSV` zero (R81). -/
def packCommand (op : BitVec 4) (ch : BitVec 1) (data : Word) : CommandWord :=
  op ++ (0#3 ++ (ch ++ data))

/-- The canonical command word of a command (R84). -/
def encodeCommand : Command → CommandWord
  | .nop => packCommand 0x0 0 0
  | .settw c v => packCommand 0x1 (chBit c) v
  | .setds c v => packCommand 0x2 (chBit c) v
  | .setbl c v => packCommand 0x3 (chBit c) v
  | .wstep c => packCommand 0x4 (chBit c) 0
  | .mstep => packCommand 0x5 0 0
  | .crclr => packCommand 0x6 0 0

/-- `{rst, cmd_valid, cmd}` (R87). -/
def packStep (rst valid : Bool) (cmd : CommandWord) : StepWord :=
  BitVec.ofBool rst ++ (BitVec.ofBool valid ++ cmd)

/-- The input that carries an operation: a canonical command word, a step word, or the tick event. -/
def encode : Instr → Input
  | .nop => .command (encodeCommand .nop)
  | .settw c v => .command (encodeCommand (.settw c v))
  | .setds c v => .command (encodeCommand (.setds c v))
  | .setbl c v => .command (encodeCommand (.setbl c v))
  | .wstep c => .command (encodeCommand (.wstep c))
  | .mstep => .command (encodeCommand .mstep)
  | .crclr => .command (encodeCommand .crclr)
  | .reset => .edge (packStep true false 0)
  | .clk valid cmd => .edge (packStep false valid cmd)
  | .tick => .tick

/-- The idle clock edge: `rst = 0`, `cmd_valid = 0` (R87). -/
def idleEdge : Input := .edge (packStep false false 0)

end Sys2Proof
end

