-- ==== Sys2Proof/Machine/State.lean ====
section
/-! DEFINITION. The state of the block: the tuple of `10_state.md` R20, the two fields of the model itself
(the inputs still to come and the ROM bytes a claim names), and the values after reset (R37). -/

namespace Sys2Proof.Machine

/-- The reasons a step can fault: none. The block "raises no exception, trap or fault of any kind", and
every transition function is total (`60_exceptions.md` R180). Nothing raises one; that it has no
constructor is safe. -/
inductive Fault where
deriving DecidableEq, Repr

/-- The reasons a step can be refused. -/
inductive Refusal where
  /-- Raised by an arm of `exec` for an operation that has no meaning yet; no arm is one. Safe: the
  model stops where the hardware goes on. -/
  | notModelled (mnemonic : String)
deriving DecidableEq, Repr

/-- The operating mode (R27, R135). -/
inductive Mode where
  | off
  | fx
  | drone
  | tune
deriving DecidableEq, Repr

/-- A depth shift: an integer in [0, 8] (R23). -/
abbrev DepthShift := Fin (Config.dsMax + 1)

/-- A wave select: the number of one of the nine tables (R25). -/
abbrev WaveSelect := Fin Config.nWaves

/-- The tick sub-counter: an integer in [0, 124] (R29). -/
abbrev TickCount := Fin Config.tcPeriod

/-- The tick prescaler: an integer in [0, 509] (R31). -/
abbrev Prescaler := Fin Config.tickDiv

/-- The registers of one channel (R20 to R26, R38). -/
structure ChannelRegs where
  /-- `acc[c]`, the phase accumulator (R21). -/
  acc : Word
  /-- `tw[c]`, the tuning word (R22). -/
  tw : Word
  /-- `ds[c]`, the depth shift (R23). -/
  ds : DepthShift
  /-- `bl[c]`, the base level (R24). -/
  bl : Byte
  /-- `ws[c]`, the wave select (R25). -/
  ws : WaveSelect
  /-- `out[c]`, the output register (R26). -/
  out : Byte
deriving DecidableEq, Repr

/-- Bytes of the wavetable ROM by flat address (R61), in canonical form: addresses strictly rising, none
above 2303 (`Memory.wf`). A byte that is not listed is the free value `Config.waveTable`
(assumption log 5, log 6). -/
abbrev Memory := List Host.Cell

/-- The state of the block (R20) and the model's own two fields. -/
structure State where
  /-- Channel A's registers. -/
  chA : ChannelRegs
  /-- Channel B's registers. -/
  chB : ChannelRegs
  /-- `mode`, the operating mode (R27). -/
  mode : Mode
  /-- `tc`, the tick sub-counter (R29). -/
  tc : TickCount
  /-- `fc`, the flag count (R30). -/
  fc : Byte
  /-- `presc`, the tick prescaler of the clock-level wrapper (R31). -/
  presc : Prescaler
  /-- The model's own: the inputs still to come at the pins, the next one first (R34, R68; assumption
  log 1). -/
  inputs : List Input
  /-- The model's own: the ROM bytes that are named; every other byte is free (R62; assumption log 5). -/
  rom : Memory
deriving DecidableEq, Repr

/-- The registers of a channel after `RESET` (R37). -/
def ChannelRegs.reset : ChannelRegs :=
  { acc := 0, tw := 0, ds := 0, bl := 0, ws := 0, out := 0 }

/-- The block right after `RESET` (R37): every element zero, the mode Off. No input is pending and no ROM
byte is named (assumption log 2, log 5). -/
def State.reset : State :=
  { chA := .reset, chB := .reset, mode := .off, tc := 0, fc := 0, presc := 0, inputs := [], rom := [] }

end Sys2Proof.Machine
end

