-- ==== Sys2Proof/Machine/Ops.lean ====
section
/-! DEFINITION. The named operations over registers and over the one memory: reading and writing each
state element (`10_state.md` R20 to R31), the mode's numbering (R135), the hardwired polarity (R28), the
base level per mode (R139), and the ROM (`20_memory.md` R60 to R67). The block has no exception to take
and none to return from (`60_exceptions.md` R180, R183, R184), so no operation here saves or restores a
context. -/

namespace Sys2Proof.Machine

/-- The registers of channel `c` (R38). -/
def State.chan (s : State) : Channel → ChannelRegs
  | .a => s.chA
  | .b => s.chB

/-- Write the registers of channel `c`; the other channel keeps its own (R38). -/
def State.setChan (s : State) (c : Channel) (r : ChannelRegs) : State :=
  match c with
  | .a => { s with chA := r }
  | .b => { s with chB := r }

/-- `acc[c] <- v` (R21). -/
def State.setAcc (s : State) (c : Channel) (v : Word) : State :=
  s.setChan c { s.chan c with acc := v }

/-- `tw[c] <- v`, all 32 bits in one transition (R22, R66). -/
def State.setTw (s : State) (c : Channel) (v : Word) : State :=
  s.setChan c { s.chan c with tw := v }

/-- `ds[c] <- v` (R23). -/
def State.setDs (s : State) (c : Channel) (v : DepthShift) : State :=
  s.setChan c { s.chan c with ds := v }

/-- `bl[c] <- v` (R24). -/
def State.setBl (s : State) (c : Channel) (v : Byte) : State :=
  s.setChan c { s.chan c with bl := v }

/-- `ws[c] <- v` (R25). -/
def State.setWs (s : State) (c : Channel) (v : WaveSelect) : State :=
  s.setChan c { s.chan c with ws := v }

/-- `out[c] <- v` (R26). -/
def State.setOut (s : State) (c : Channel) (v : Byte) : State :=
  s.setChan c { s.chan c with out := v }

/-- `mode <- m` (R27). -/
def State.setMode (s : State) (m : Mode) : State := { s with mode := m }

/-- `tc <- t` (R29). -/
def State.setTc (s : State) (t : TickCount) : State := { s with tc := t }

/-- `fc <- n` (R30). -/
def State.setFc (s : State) (n : Byte) : State := { s with fc := n }

/-- `presc <- p` (R31). -/
def State.setPresc (s : State) (p : Prescaler) : State := { s with presc := p }

/-- Replace the inputs still to come (the model's own field). -/
def State.setInputs (s : State) (l : List Input) : State := { s with inputs := l }

/-- The mode's number: Off = 0, Fx = 1, Drone = 2, Tune = 3 (R27, R135). -/
def Mode.index : Mode → BitVec 2
  | .off => 0
  | .fx => 1
  | .drone => 2
  | .tune => 3

/-- The mode with a given number (R135). -/
def Mode.ofIndex (n : BitVec 2) : Mode :=
  match n.toNat with
  | 0 => .off
  | 1 => .fx
  | 2 => .drone
  | _ => .tune

/-- `(mode + 1) mod 4` (R138). -/
def nextMode (m : Mode) : Mode :=
  Mode.ofIndex (BitVec.ofNat 2 ((m.index.toNat + 1) % Config.nModes))

/-- `MODE_BASE`, channel B's base level per mode (R139). -/
def modeBase : Mode → Byte
  | .off => BitVec.ofNat 8 Config.modeBaseOff
  | .fx => BitVec.ofNat 8 Config.modeBaseFx
  | .drone => BitVec.ofNat 8 Config.modeBaseDrone
  | .tune => BitVec.ofNat 8 Config.modeBaseTune

/-- `(ws + 1) mod 9` (R112). -/
def nextWave (k : WaveSelect) : WaveSelect :=
  ⟨(k.val + 1) % Config.nWaves, Nat.mod_lt _ (by decide)⟩

/-- The two combination policies (R28): subtractive is 0, additive is 1. -/
inductive Polarity where
  | sub
  | add
deriving DecidableEq, Repr

/-- `pol[c]`, hardwired (R28, R123). -/
def polarity : Channel → Polarity
  | .a => .sub
  | .b => .add

/-- The polarity's bit: `SUB` = 0, `ADD` = 1 (R28, R90). -/
def Polarity.bit : Polarity → BitVec 1
  | .sub => 0
  | .add => 1

/-- The flat ROM address of an entry, `sel * 256 + idx` (R61). -/
def flatAddress (sel : WaveSelect) (idx : Byte) : Nat :=
  sel.val * Config.wtLen + idx.toNat

/-- The bytes the ROM has: 9 tables of 256 (R61). -/
def romSize : Nat := Config.nWaves * Config.wtLen

/-- The byte a memory names at a flat address, if it names one. -/
def Memory.lookup : Memory → Nat → Option Byte
  | [], _ => none
  | (a, b) :: rest, addr => if a = addr then some b else Memory.lookup rest addr

/-- The canonical form: addresses strictly rising, all of them in the ROM (R61; assumption log 6). -/
def Memory.wf : Memory → Bool
  | [] => true
  | [(a, _)] => decide (a < romSize)
  | (a, _) :: (b, x) :: rest => decide (a < b) && Memory.wf ((b, x) :: rest)

/-- What an entry of the ROM holds (R63, R110): the byte the memory names, else the free value `WT`
(R5, R62; assumption log 5). -/
def romRead (m : Memory) (sel : WaveSelect) (idx : Byte) : Byte :=
  (m.lookup (flatAddress sel idx)).getD (Config.waveTable sel idx)

/-- `MemRead(addr, 1)` of the flat address space (R7, R61): flat addresses from 2304 up do not exist. -/
def memRead (m : Memory) (addr : Nat) : Option Byte :=
  if h : addr < romSize then
    some (romRead m ⟨addr / Config.wtLen, Nat.div_lt_of_lt_mul (by
      simpa [romSize, Nat.mul_comm] using h)⟩ (BitVec.ofNat 8 (addr % Config.wtLen)))
  else none

/-- A register value held between two bounds: `max(lo, min(hi, x))` (R6). -/
def clamp (x lo hi : Int) : Int := max lo (min hi x)

end Sys2Proof.Machine
end

