-- ==== Sys2Proof/Machine/Operands.lean ====
section
/-! DEFINITION. How `DATA` becomes the value written, per command (`30_encoding.md` R83). `SETTW` stores
the operand as it is (R103), so it needs no function here. -/

namespace Sys2Proof.Machine

/-- A depth shift is what the clamp to [0, 8] leaves (R126). -/
theorem clamp_dsMax_lt (x : Int) : (clamp x 0 Config.dsMax).toNat < Config.dsMax + 1 := by
  simp only [clamp]
  omega

/-- `clamp(sint32(v), 0, 8)`: the operand of `SETDS` is signed (R83, R126). -/
def depthOperand (v : Word) : DepthShift :=
  ⟨(clamp v.toInt 0 Config.dsMax).toNat, clamp_dsMax_lt v.toInt⟩

/-- `min(v, 255)`: the operand of `SETBL` is unsigned (R83, R127). -/
def baseOperand (v : Word) : Byte := BitVec.ofNat 8 (min v.toNat 255)

end Sys2Proof.Machine
end

