-- ==== Sys2Proof/Machine/Commands.lean ====
section
/-! DEFINITION. The meanings of the seven host commands (`30_encoding.md` R84): each is one atomic and total
transition (`20_memory.md` R68, `60_exceptions.md` R180), written once as a function of the state and used
by the event of its own (the `exec…` definitions) and by a clock edge that carries it (R145). -/

namespace Sys2Proof.Machine

/-- `NOP`: no state element changes (R150). -/
def noOperation (s : State) : State := s

/-- `SETTW c, v`: `tw[c] <- v` (R103). -/
def setTuningWord (c : Channel) (v : Word) (s : State) : State := s.setTw c v

/-- `SETDS c, v`: `ds[c] <- clamp(sint32(v), 0, 8)` (R126). -/
def setDepthShift (c : Channel) (v : Word) (s : State) : State := s.setDs c (depthOperand v)

/-- `SETBL c, v`: `bl[c] <- min(v, 255)` (R127). -/
def setBaseLevel (c : Channel) (v : Word) (s : State) : State := s.setBl c (baseOperand v)

/-- `WSTEP c`: `ws[c] <- (ws[c] + 1) mod 9` (R112). -/
def stepWave (c : Channel) (s : State) : State := s.setWs c (nextWave (s.chan c).ws)

/-- `MSTEP`: the mode's successor and channel B's base level for it, in one transition (R138). -/
def stepMode (s : State) : State :=
  let m := nextMode s.mode
  (s.setMode m).setBl .b (modeBase m)

/-- `CRCLR`: `fc <- 0` (R149). -/
def clearFlagCount (s : State) : State := s.setFc 0

/-- A reserved code changes no state element: it acts as `NOP` (R85). -/
def reservedCode (_ : DecodeError) (s : State) : State := noOperation s

/-- What a decoded command does. -/
def applyCommand (cmd : Command) (s : State) : State :=
  match cmd with
  | .nop => noOperation s
  | .settw c v => setTuningWord c v s
  | .setds c v => setDepthShift c v s
  | .setbl c v => setBaseLevel c v s
  | .wstep c => stepWave c s
  | .mstep => stepMode s
  | .crclr => clearFlagCount s

/-- "perform the command decoded from cmd" (R145); a reserved code does nothing (R85). -/
def applyCommandWord (w : CommandWord) (s : State) : State :=
  match decodeCommand w with
  | .ok cmd => applyCommand cmd s
  | .error e => reservedCode e s

/-- The meaning of `NOP` (R150). -/
def execNop (s : State) : Host.Outcome State Fault Refusal := .next (noOperation s)

/-- The meaning of `SETTW` (R103). -/
def execSettw (c : Channel) (v : Word) (s : State) : Host.Outcome State Fault Refusal :=
  .next (setTuningWord c v s)

/-- The meaning of `SETDS` (R126). -/
def execSetds (c : Channel) (v : Word) (s : State) : Host.Outcome State Fault Refusal :=
  .next (setDepthShift c v s)

/-- The meaning of `SETBL` (R127). -/
def execSetbl (c : Channel) (v : Word) (s : State) : Host.Outcome State Fault Refusal :=
  .next (setBaseLevel c v s)

/-- The meaning of `WSTEP` (R112). -/
def execWstep (c : Channel) (s : State) : Host.Outcome State Fault Refusal := .next (stepWave c s)

/-- The meaning of `MSTEP` (R138). -/
def execMstep (s : State) : Host.Outcome State Fault Refusal := .next (stepMode s)

/-- The meaning of `CRCLR` (R149). -/
def execCrclr (s : State) : Host.Outcome State Fault Refusal := .next (clearFlagCount s)

/-- What performing a reserved code does: the next state is the state (R85). -/
def execReserved (e : DecodeError) (s : State) : Host.Outcome State Fault Refusal :=
  .next (reservedCode e s)

end Sys2Proof.Machine
end

