-- ==== Sys2Proof/Machine/Flags.lean ====
section
/-! DEFINITION. The block's only flag-like state, the flag count and the divider behind it
(`44_tick_scheduler.md` R147, R148). No operation records a carry, a saturation or a clamp
(`10_state.md` R39). -/

namespace Sys2Proof.Machine

/-- `div_next` (R147): the sub-counter's next value, and whether this tick raises a flag. -/
def divNext (t : TickCount) : TickCount × Bool :=
  if h : t.val + 1 < Config.tcPeriod then (⟨t.val + 1, h⟩, false) else (⟨0, by decide⟩, true)

/-- A raised flag increments the flag count, saturating at 255 (R148). -/
def raiseFlag (n : Byte) : Byte := BitVec.ofNat 8 (min (n.toNat + 1) Config.fcMax)

/-- `fc > CR_THRESH`: the control cycle is due (R33, R148). -/
def controlDue (n : Byte) : Bool := decide (n.toNat > Config.crThresh)

/-- The divider's part of a tick (R146): `tc` steps, and `fc` counts the flag it may raise. It runs in
every mode (R137, R147). -/
def stepDivider (s : State) : State :=
  let d := divNext s.tc
  let s' := s.setTc d.1
  if d.2 then s'.setFc (raiseFlag s.fc) else s'

end Sys2Proof.Machine
end

