-- ==== Sys2Proof/Machine/Stages.lean ====
section
/-! DEFINITION. The stages of `TICK` as pure functions: the NCO (`40_dds_nco.md`), the ROM multiplexer
(`41_wavetable.md`), the combiner (`42_combiner.md`) and the output gate (`43_mode_gate.md`). Integer
arithmetic only (R104). -/

namespace Sys2Proof.Machine

/-- `nco_next(a, t) = (a + t) mod 2^32` (R100). -/
def ncoNext (a t : Word) : Word := BitVec.ofNat 32 ((a.toNat + t.toNat) % 2 ^ 32)

/-- `phase_index(a) = a >> 24` (R101). -/
def phaseIndex (a : Word) : Byte := BitVec.ofNat 8 (a.toNat >>> Config.idxShift)

/-- `wt_lookup(sel, i) = ROM(sel, i)` (R110). -/
def wtLookup (m : Memory) (sel : WaveSelect) (i : Byte) : Byte := romRead m sel i

/-- `depth_scale(s, d) = s >> d`, a logical shift (R120). -/
def depthScale (s : Byte) (d : DepthShift) : Byte := BitVec.ofNat 8 (s.toNat >>> d.val)

/-- `combine(pol, b, m)`: `max(0, b - m)` under `SUB` (R121), `min(255, b + m)` under `ADD` (R122). -/
def combine (p : Polarity) (b m : Byte) : Byte :=
  match p with
  | .sub => BitVec.ofNat 8 (max 0 ((b.toNat : Int) - (m.toNat : Int))).toNat
  | .add => BitVec.ofNat 8 (min 255 (b.toNat + m.toNat))

/-- `comb_out(c, s) = combine(pol[c], bl[c], depth_scale(s, ds[c]))` (R123), on channel `c`'s registers. -/
def combOut (c : Channel) (r : ChannelRegs) (sample : Byte) : Byte :=
  combine (polarity c) r.bl (depthScale sample r.ds)

/-- `gate(g, oa, ob)`: both outputs zero in Off, unchanged otherwise (R136). -/
def gate (g : Mode) (oa ob : Byte) : Byte × Byte :=
  match g with
  | .off => (0, 0)
  | .fx => (oa, ob)
  | .drone => (oa, ob)
  | .tune => (oa, ob)

/-- One lane of a tick up to the combiner (R146): the accumulator's new value, the sample at the index
taken from that new value (R101), and the combiner's output. -/
def laneNext (m : Memory) (c : Channel) (r : ChannelRegs) : Word × Byte :=
  let a := ncoNext r.acc r.tw
  (a, combOut c r (wtLookup m r.ws (phaseIndex a)))

end Sys2Proof.Machine
end

