-- ==== Sys2Proof/Machine/Events.lean ====
section
/-! DEFINITION. The meanings of the three operations without a command word (`30_encoding.md` R87): `RESET`
(`70_reset_and_hazards.md` R200), `TICK` (`44_tick_scheduler.md` R146) and `CLK` (R145, R151). -/

namespace Sys2Proof.Machine

/-- `RESET`: every state element takes its reset value (R37, R200). The ROM is untouched (R62, R200); the
inputs still to come belong to the outside world (assumption log 10). -/
def resetBlock (s : State) : State :=
  { State.reset with inputs := s.inputs, rom := s.rom }

/-- The Off branch of a tick: both outputs are written zero; the accumulators hold and no ROM read is
made (R137, R146). -/
def tickMuted (s : State) : State := (s.setOut .a 0).setOut .b 0

/-- The other branch of a tick: both lanes from the state before the tick, then the gate (R146). -/
def tickLanes (s : State) : State :=
  let la := laneNext s.rom .a s.chA
  let lb := laneNext s.rom .b s.chB
  let o := gate s.mode la.2 lb.2
  (((s.setAcc .a la.1).setAcc .b lb.1).setOut .a o.1).setOut .b o.2

/-- The DDS path of a tick, by mode (R137, R146). -/
def tickDatapath (s : State) : State :=
  match s.mode with
  | .off => tickMuted s
  | .fx => tickLanes s
  | .drone => tickLanes s
  | .tune => tickLanes s

/-- `TICK`: the DDS path, then the sub-counter and the flag count (R146). -/
def tickBlock (s : State) : State := stepDivider (tickDatapath s)

/-- The prescaler's part of a clock edge (R145): at 509 it returns to 0 and the tick is performed,
otherwise it counts up. -/
def clockPrescaler (s : State) : State :=
  if h : s.presc.val + 1 < Config.tickDiv then s.setPresc ⟨s.presc.val + 1, h⟩
  else tickBlock (s.setPresc ⟨0, by decide⟩)

/-- `CLK`: the prescaler and the tick it may perform, then the command on the pins, if any, on the state
the tick left (R145, R151). -/
def clockEdge (valid : Bool) (cmd : CommandWord) (s : State) : State :=
  if valid then applyCommandWord cmd (clockPrescaler s) else clockPrescaler s

/-- The meaning of `RESET` (R200). -/
def execReset (s : State) : Host.Outcome State Fault Refusal := .next (resetBlock s)

/-- The meaning of `TICK` (R146). -/
def execTick (s : State) : Host.Outcome State Fault Refusal := .next (tickBlock s)

/-- The meaning of `CLK` (R145). -/
def execClk (valid : Bool) (cmd : CommandWord) (s : State) : Host.Outcome State Fault Refusal :=
  .next (clockEdge valid cmd s)

end Sys2Proof.Machine
end

