-- ==== Sys2Proof/Machine/Dispatch.lean ====
section
/-! DEFINITION. Which meaning each operation has: one arm per row of the opcode table. -/

namespace Sys2Proof.Machine

def exec (i : Instr) (s : State) : Host.Outcome State Fault Refusal :=
  match i with
  | .nop => Sys2Proof.Machine.execNop s
  | .settw c v => Sys2Proof.Machine.execSettw c v s
  | .setds c v => Sys2Proof.Machine.execSetds c v s
  | .setbl c v => Sys2Proof.Machine.execSetbl c v s
  | .wstep c => Sys2Proof.Machine.execWstep c s
  | .mstep => Sys2Proof.Machine.execMstep s
  | .crclr => Sys2Proof.Machine.execCrclr s
  | .reset => Sys2Proof.Machine.execReset s
  | .clk valid cmd => Sys2Proof.Machine.execClk valid cmd s
  | .tick => Sys2Proof.Machine.execTick s

end Sys2Proof.Machine
end

