-- ==== Sys2Proof/Machine/Perform.lean ====
section
/-! DEFINITION. From an input at the pins to the operation it performs (`10_state.md` R34,
`30_encoding.md` R87), and sequences of inputs: a program is a finite sequence of operations
(`00_scope.md` R4). -/

namespace Sys2Proof.Machine

/-- The input at the pins: the next one of the list, and an idle clock edge when none is left
(assumption log 2). -/
def nextInput (s : State) : Input :=
  match s.inputs with
  | [] => idleEdge
  | i :: _ => i

/-- The state with that input taken. -/
def takeInput (s : State) : State := s.setInputs s.inputs.tail

/-- Perform one input: the operation it decodes to, or nothing for a reserved code (R85). -/
def performInput (i : Input) (s : State) : Host.Outcome State Fault Refusal :=
  match decodeInput i with
  | .ok op => exec op s
  | .error e => execReserved e s

/-- Perform a list of inputs in order, stopping at the first fault or refusal. -/
def performAll : List Input → State → Host.Outcome State Fault Refusal
  | [], s => .next s
  | i :: rest, s =>
    match performInput i s with
    | .next t => performAll rest t
    | .fault r => .fault r
    | .refused r => .refused r

/-- Perform a list of operations in order (a program of R4), stopping at the first fault or refusal. -/
def execAll : List Instr → State → Host.Outcome State Fault Refusal
  | [], s => .next s
  | i :: rest, s =>
    match exec i s with
    | .next t => execAll rest t
    | .fault r => .fault r
    | .refused r => .refused r

/-- Place the bits of an opcode-table row as the input the next step takes. -/
def presentWord (nbits w : Nat) (s : State) : State := s.setInputs (inputOfWord nbits w :: s.inputs)

end Sys2Proof.Machine
end

