-- ==== Sys2Proof/Machine/Step.lean ====
section
/-! DEFINITION. One step: the input at the pins is taken and performed. -/

namespace Sys2Proof.Machine

/-- Take the next input and perform it: a next state, a fault or a refusal (no operation faults or is
refused, R180). -/
def step (s : State) : Host.Outcome State Fault Refusal := performInput (nextInput s) (takeInput s)

/-- `s` with the given instruction word as the input that the next step takes (assumption log 3). -/
def State.withFetchWord (s : State) (nbits w : Nat) : State := presentWord nbits w s

end Sys2Proof.Machine
end

