-- ==== Sys2Proof/Machine/Pins.lean ====
section
/-! DEFINITION. The output pins, each a pure function of the state (`10_state.md` R33, `30_encoding.md`
R80): the only ways an agent outside the block observes it. The derived wire `idx[c]` (R32) stands beside
them. -/

namespace Sys2Proof.Machine

/-- `idx[c] = acc[c] >> 24`, a wire, never stored (R32). -/
def phaseIndexWire (s : State) (c : Channel) : Byte := phaseIndex (s.chan c).acc

/-- `out_a = out[A]` (R26, R33). -/
def outAPin (s : State) : Byte := s.chA.out

/-- `out_b = out[B]` (R26, R33). -/
def outBPin (s : State) : Byte := s.chB.out

/-- `mode_o = mode` (R33, R140). -/
def modePin (s : State) : BitVec 2 := s.mode.index

/-- `cr_ready = 1` when `fc > CR_THRESH` (R33, R148). -/
def crReadyPin (s : State) : Bool := controlDue s.fc

/-- `tick_o = 1` when `presc = TICK_DIV - 1` and `rst = 0` (R33). `rst` is the level of the input pin in
the cycle that is looked at (assumption log 12). -/
def tickPin (rst : Bool) (s : State) : Bool := decide (s.presc.val = Config.tickDiv - 1) && !rst

/-- The five output pins (R33, R80). -/
structure Pins where
  outA : Byte
  outB : Byte
  modeO : BitVec 2
  crReady : Bool
  tickO : Bool
deriving DecidableEq, Repr

/-- What the outside world sees of a state while `rst` has the given level (R33). -/
def pinsOf (rst : Bool) (s : State) : Pins :=
  { outA := outAPin s, outB := outBPin s, modeO := modePin s, crReady := crReadyPin s,
    tickO := tickPin rst s }

end Sys2Proof.Machine
end

