-- ==== Sys2Proof/Machine/Mapper.lean ====
section
/-! DEFINITION. The host's contract, the Control-Rate Parameter Mapper (`45_param_mapper.md` R165 to R174):
which commands the intended host issues, when, and with which values. None of it is computed by the block
(`00_scope.md` R3); no step calls this file. Assumption log 13. -/

namespace Sys2Proof.Machine

/-- The readings of one channel that the host consumes in a control cycle (R165): the two raw knob
readings, of any value before the clamp of R170, and the debounced wave-select edge. -/
structure ChannelReadings where
  freqRaw : Int
  depthRaw : Int
  waveEdge : Bool
deriving DecidableEq, Repr

/-- The document's `RawControl` (R165). -/
structure RawControl where
  readA : ChannelReadings
  readB : ChannelReadings
  modeEdge : Bool
deriving DecidableEq, Repr

/-- Input clamping to [0, 1023] (R170). -/
def clampReading (x : Int) : Nat := (clamp x 0 1023).toNat

/-- `TW_MAP(f) = round(1.02^f) + 8192` in exact arithmetic, `1.02^f = 51^f / 50^f` (R167), for a reading in
[0, 1023]; no rule gives it a value above that, and the control cycle clamps first (R170; assumption
log 13). -/
def exactTwMap (f : Nat) : Word :=
  BitVec.ofNat 32 ((2 * 51 ^ f + 50 ^ f) / (2 * 50 ^ f) + 8192)

/-- The host's depth value before any clamp, `8 - (d >> 7)` (R168). -/
def depthUnclamped (d : Nat) : Int := 8 - (d >>> 7 : Nat)

/-- `DS_MAP(d) = clamp(8 - (d >> 7), 0, 8)` (R168), for a reading in [0, 1023]; no rule gives it a value above
that, and the control cycle clamps first (R170; assumption log 13). -/
def dsMap (d : Nat) : Word := BitVec.ofInt 32 (clamp (depthUnclamped d) 0 Config.dsMax)

/-- The channel writes every control cycle makes, after the clear (R171). -/
def ctrlWrites (twMap : Nat → Word) (r : RawControl) : List Instr :=
  [Instr.crclr,
   Instr.settw .a (twMap (clampReading r.readA.freqRaw)),
   Instr.setds .a (dsMap (clampReading r.readA.depthRaw)),
   Instr.settw .b (twMap (clampReading r.readB.freqRaw)),
   Instr.setds .b (dsMap (clampReading r.readB.depthRaw))]

/-- One step per true edge reading (R169). -/
def stepOnEdge (edge : Bool) (i : Instr) : List Instr := if edge then [i] else []

/-- `CTRL_CYCLE`: the commands of one control cycle, in the order of R171, for a host whose tuning-word
map is `twMap`. -/
def ctrlCycle (twMap : Nat → Word) (r : RawControl) : List Instr :=
  (ctrlWrites twMap r).append ((stepOnEdge r.readA.waveEdge (.wstep .a)).append
    ((stepOnEdge r.readB.waveEdge (.wstep .b)).append (stepOnEdge r.modeEdge .mstep)))

/-- The host polls `cr_ready`: when it reads 1 it runs one control cycle, when it reads 0 it does nothing
to the block (R166). -/
def pollControl (twMap : Nat → Word) (r : RawControl) (s : State) : List Instr :=
  if crReadyPin s then ctrlCycle twMap r else []

/-- What the host issues at start-up for useful output (R173, R201): tuning words, depth shifts, channel A's
base level `BASE_A`, the wanted tables, and the steps out of Off: one `MSTEP`, which R201 asks for at least,
and `moreModeSteps` after it. DESIGN CHOICE: R201 leaves the order of these commands and the ticks between
them open; this is one such sequence, with no tick between and the mode steps last (assumption log 17). -/
def bootCommands (tw : Channel → Word) (ds : Channel → Word) (table : Channel → WaveSelect)
    (moreModeSteps : Nat) : List Instr :=
  [Instr.settw .a (tw .a), Instr.settw .b (tw .b), Instr.setds .a (ds .a), Instr.setds .b (ds .b),
    Instr.setbl .a Config.baseA].append
    ((List.replicate (table .a).val (Instr.wstep .a)).append
      ((List.replicate (table .b).val (Instr.wstep .b)).append (List.replicate (moreModeSteps + 1) Instr.mstep)))

/-- The commands the document's host issues (R174): never `SETBL B`, `SETDS` only with an operand in
[1, 8], `SETTW` only with an operand of at least 8193. -/
def intendedCommand : Command → Bool
  | .nop => true
  | .settw _ v => decide (8193 ≤ v.toNat)
  | .setds _ v => decide (1 ≤ v.toInt) && decide (v.toInt ≤ 8)
  | .setbl c _ => decide (c = .a)
  | .wstep _ => true
  | .mstep => true
  | .crclr => true

end Sys2Proof.Machine
end

