-- ==== Sys2Proof/Machine/Timing.lean ====
section
/-! DEFINITION. The laws about rates (`40_dds_nco.md` R102, `70_reset_and_hazards.md` R215 to R219), exact
rationals over the OPEN clock frequency. "No rule of the model depends on anything in this section": no
step calls this file. Assumption log 13. -/

namespace Sys2Proof.Machine

/-- `tickRate = F_CLK / 510`, in ticks per second (R215). -/
def tickRate (fClk : ℚ) : ℚ := fClk / Config.tickDiv

/-- Clock periods between two flags, 63 750 (R216). -/
def flagClocks : Nat := Config.tcPeriod * Config.tickDiv

/-- Ticks from a clear at a flag boundary to `cr_ready`, 3250 (R217). -/
def controlTicks : Nat := (Config.crThresh + 1) * Config.tcPeriod

/-- A channel's output frequency, `tuningWord / 2^32 * tickRate` (R102, R218). -/
def outputFrequency (fClk : ℚ) (tw : Word) : ℚ := (tw.toNat : ℚ) / 2 ^ 32 * tickRate fClk

/-- The rates of the block itself, at its own clock `F_CLK` (R215). -/
def blockTickRate : ℚ := tickRate Config.fClk

/-- The most clock periods from a command to its showing in `out[c]` (R219). -/
def commandLatency : Nat := Config.tickDiv

end Sys2Proof.Machine
end

