-- ==== Sys2Proof/Machine/Trace.lean ====
section
/-! DEFINITION. Traces of operations: the event-level trace that a clock-level run determines
(`44_tick_scheduler.md` R154), the pseudo-operations and the trace syntax (`30_encoding.md` R88, R89). No
step calls this file. -/

namespace Sys2Proof.Machine

/-- The prescaler after a clock edge with the given pins (R145, R200). -/
def prescalerAfter (p : Prescaler) (w : StepWord) : Prescaler :=
  if w.getLsbD 41 then ⟨0, by decide⟩
  else if h : p.val + 1 < Config.tickDiv then ⟨p.val + 1, h⟩ else ⟨0, by decide⟩

/-- The events of one clock edge (R154): a `RESET` stays; a `CLK` becomes `TICK` if it wraps the
prescaler, followed by its command if it carries one. -/
def edgeEvents (p : Prescaler) (w : StepWord) : List Input :=
  if w.getLsbD 41 then [.edge w]
  else
    (if p.val + 1 < Config.tickDiv then [] else [.tick])
    ++ (if w.getLsbD 40 then [.command (w.extractLsb' 0 40)] else [])

/-- The event-level trace of a clock-level run that starts with prescaler `p` (R154). -/
def eventTrace : List StepWord → Prescaler → List Input
  | [], _ => []
  | w :: rest, p => edgeEvents p w ++ eventTrace rest (prescalerAfter p w)

/-- `<op> *n`: `n` copies of the line (R89). -/
def repeatLine (n : Nat) (l : List Input) : List Input := (List.replicate n l).flatten

/-- `WSEL c, k`: `WSTEP c *k`, valid where `ws[c] = 0` is known (R89). -/
def wsel (c : Channel) (k : WaveSelect) : List Instr := List.replicate k.val (.wstep c)

/-- `MODETO m`: `MSTEP` as many times as the mode's number, valid where the mode is known to be Off
(R89). -/
def modeTo (m : Mode) : List Instr := List.replicate m.index.toNat .mstep

/-- Drop the comment that a semicolon starts (R88). -/
def dropComment (l : List Char) : List Char := l.takeWhile (fun ch => ch != ';')

/-- Drop the spaces at both ends. -/
def trimSpaces (l : List Char) : List Char :=
  ((l.dropWhile (fun ch => ch == ' ')).reverse.dropWhile (fun ch => ch == ' ')).reverse

/-- Cut a line at every occurrence of a character. -/
def cutAt (sep : Char) : List Char → List (List Char)
  | [] => [[]]
  | ch :: rest =>
    if ch == sep then [] :: cutAt sep rest
    else
      match cutAt sep rest with
      | [] => [[ch]]
      | w :: ws => (ch :: w) :: ws

/-- The value of a decimal digit. -/
def decimalDigit (ch : Char) : Option Nat :=
  if '0'.toNat ≤ ch.toNat ∧ ch.toNat ≤ '9'.toNat then some (ch.toNat - '0'.toNat) else none

/-- The value of a hexadecimal digit, in capitals or small letters. -/
def hexDigit (ch : Char) : Option Nat :=
  if 'A'.toNat ≤ ch.toNat ∧ ch.toNat ≤ 'F'.toNat then some (ch.toNat - 'A'.toNat + 10)
  else if 'a'.toNat ≤ ch.toNat ∧ ch.toNat ≤ 'f'.toNat then some (ch.toNat - 'a'.toNat + 10)
  else decimalDigit ch

/-- Read digits after a value already read. -/
def readDigits (base : Nat) (digit : Char → Option Nat) : List Char → Nat → Option Nat
  | [], n => some n
  | ch :: rest, n =>
    match digit ch with
    | some d => readDigits base digit rest (n * base + d)
    | none => none

/-- A decimal number of at least one digit. -/
def readDecimal (l : List Char) : Option Nat := if l.isEmpty then none else readDigits 10 decimalDigit l 0

/-- A decimal number, or a hexadecimal number with the prefix `0x` (R88). -/
def readNumber (l : List Char) : Option Nat :=
  match l with
  | '0' :: 'x' :: d :: rest => readDigits 16 hexDigit (d :: rest) 0
  | other => readDecimal other

/-- A number of at most 32 bits as an operand; a larger one is no operand (assumption log 15). -/
def readUnsigned (l : List Char) : Option Word :=
  match readNumber l with
  | some n => if n < 2 ^ 32 then some (BitVec.ofNat 32 n) else none
  | none => none

/-- An operand of `SETDS`: also a negative decimal number, in two's complement (R88). -/
def readSigned (l : List Char) : Option Word :=
  match l with
  | '-' :: rest =>
    match readDecimal rest with
    | some n => if n ≤ 2 ^ 31 then some (BitVec.ofInt 32 (-(n : Int))) else none
    | none => none
  | other => readUnsigned other

/-- A knob reading of `CTRL_CYCLE` (R171): a number as a value operand is written (R88), or a negative
decimal number, of any size, since a raw reading may lie outside its range (R170). DESIGN CHOICE: R171 does
not say how a reading is written (assumption log 15). -/
def readReading (l : List Char) : Option Int :=
  match l with
  | '-' :: rest => (readDecimal rest).map (fun n => -(n : Int))
  | other => (readNumber other).map (fun n => (n : Int))

/-- A channel operand: the letter A or B (R88). -/
def readChannel (l : List Char) : Option Channel :=
  if l = ['A'] then some .a else if l = ['B'] then some .b else none

/-- A boolean of `CTRL_CYCLE` (R171), written as program P4 of the spec writes it (DEDUCED, assumption
log 15). -/
def readBool (l : List Char) : Option Bool :=
  if l = "true".toList then some true else if l = "false".toList then some false else none

/-- The operand `k` of `WSEL`, in [0, 8] (R89), written as a value operand is (R88): in decimal or with
`0x`. DESIGN CHOICE: R89 does not say how `k` is written (assumption log 15). -/
def readWave (l : List Char) : Option WaveSelect :=
  match readNumber l with
  | some n => if h : n < Config.nWaves then some ⟨n, h⟩ else none
  | none => none

/-- The operand `m` of `MODETO`: FX, DRONE or TUNE (R89). -/
def readMode (l : List Char) : Option Mode :=
  if l = "FX".toList then some .fx
  else if l = "DRONE".toList then some .drone
  else if l = "TUNE".toList then some .tune
  else none

/-- The readings of one channel from their three operands (R171). -/
def readReadings (f d e : List Char) : Option ChannelReadings := do
  let f' ← readReading f
  let d' ← readReading d
  let e' ← readBool e
  pure { freqRaw := f', depthRaw := d', waveEdge := e' }

/-- The operations a mnemonic with its operands stands for (R88, R89, R171); `CLK` is never written in a
trace (R88). DESIGN CHOICE: `WSEL` and `MODETO` are expanded wherever they stand; R89 calls them valid only
where the table 0, or the mode Off, is known, and does not say what they are elsewhere (assumption log 15). -/
def readOperation (name : List Char) (args : List (List Char)) : Option (List Instr) :=
  if name = "NOP".toList ∧ args = [] then some [.nop]
  else if name = "MSTEP".toList ∧ args = [] then some [.mstep]
  else if name = "CRCLR".toList ∧ args = [] then some [.crclr]
  else if name = "TICK".toList ∧ args = [] then some [.tick]
  else if name = "RESET".toList ∧ args = [] then some [.reset]
  else
    match args with
    | [x] =>
      if name = "WSTEP".toList then (readChannel x).map (fun c => [.wstep c])
      else if name = "MODETO".toList then (readMode x).map modeTo
      else none
    | [x, y] =>
      match readChannel x with
      | none => none
      | some c =>
        if name = "SETTW".toList then (readUnsigned y).map (fun v => [.settw c v])
        else if name = "SETDS".toList then (readSigned y).map (fun v => [.setds c v])
        else if name = "SETBL".toList then (readUnsigned y).map (fun v => [.setbl c v])
        else if name = "WSEL".toList then (readWave y).map (wsel c)
        else none
    | [fa, da, ea, fb, db, eb, em] =>
      if name = "CTRL_CYCLE".toList then do
        let ra ← readReadings fa da ea
        let rb ← readReadings fb db eb
        let m ← readBool em
        pure (ctrlCycle exactTwMap { readA := ra, readB := rb, modeEdge := m })
      else none
    | _ => none

/-- The operands of a line: what commas separate, none for an empty text (R88). -/
def readArgs (l : List Char) : List (List Char) :=
  if (trimSpaces l).isEmpty then [] else (cutAt ',' l).map trimSpaces

/-- A line's mnemonic and operands: the mnemonic ends at a space, or at the parenthesis of
`CTRL_CYCLE(…)` (R88, R171). -/
def readBody (l : List Char) : Option (List Instr) :=
  match cutAt '(' l with
  | [name, rest] =>
    match rest.reverse with
    | ')' :: inner => if name = "CTRL_CYCLE".toList then readOperation name (readArgs inner.reverse) else none
    | _ => none
  | [line] =>
    if line.takeWhile (fun ch => ch != ' ') = "CTRL_CYCLE".toList then none
    else readOperation (line.takeWhile (fun ch => ch != ' ')) (readArgs (line.dropWhile (fun ch => ch != ' ')))
  | _ => none

/-- A raw command word as program P6 of the spec writes it: `0x` and ten hexadecimal digits
(assumption log 15). -/
def readRawWord (l : List Char) : Option (List Input) :=
  match l with
  | '0' :: 'x' :: digits =>
    if digits.length = 10 then
      (readDigits 16 hexDigit digits 0).map (fun n => [Input.command (BitVec.ofNat 40 n)])
    else none
  | _ => none

/-- The events of a line without its repeat count. -/
def readUnit (l : List Char) : Option (List Input) :=
  match readRawWord l with
  | some e => some e
  | none => (readBody l).map (fun ops => ops.map encode)

/-- The events one line of a trace stands for (R88, R89); none for a line that is not of the syntax. DESIGN
CHOICE: a repeat count may follow a pseudo-operation and a raw word too, with or without spaces around its
asterisk, and a line that is empty, or a comment only, stands for no event; R88 and R89 do not say
(assumption log 15). -/
def readLine (l : List Char) : Option (List Input) :=
  match cutAt '*' (trimSpaces (dropComment l)) with
  | [body] => if body.isEmpty then some [] else readUnit body
  | [body, count] =>
    match readUnit (trimSpaces body), readDecimal (trimSpaces count) with
    | some e, some n => some (repeatLine n e)
    | _, _ => none
  | _ => none

/-- A program: a list of lines, performed in order (R88). -/
def readProgram : List (List Char) → Option (List Input)
  | [] => some []
  | l :: rest =>
    match readLine l, readProgram rest with
    | some e, some es => some (e ++ es)
    | _, _ => none

end Sys2Proof.Machine
end

