-- ==== Sys2Proof/Safety.lean ====
section
/-! DEFINITION. What counts as a safe state and a safe run, in the terms the claims use: the invariants of
`10_state.md` R36, the ownership partition of R35, and what one tick or one clock edge leaves alone. -/

namespace Sys2Proof.Machine

/-- R36 (a) to (g): every element is in its legal range. -/
def State.legal (s : State) : Prop :=
  (∀ c, (s.chan c).ds.val ≤ 8) ∧ (∀ c, (s.chan c).ws.val ≤ 8) ∧ s.mode.index.toNat ≤ 3 ∧
    s.tc.val ≤ 124 ∧ s.presc.val ≤ 509 ∧ (∀ c, ((s.chan c).acc.toNat >>> 24) ≤ 255) ∧
    (∀ c, (s.chan c).out.toNat ≤ 255)

/-- Both output registers are zero. -/
def State.silent (s : State) : Prop := s.chA.out = 0 ∧ s.chB.out = 0

/-- Does this clock edge perform a tick (R145)? -/
def wrapsAt (s : State) : Bool := decide (s.presc.val = 509)

/-- The word is a mode step. -/
def carriesMstep (w : CommandWord) : Bool := decide (decodeCommand w = .ok .mstep)

/-- R36 (h)'s history: has a `TICK` run since the mode last became Off, or since `RESET`? `ticked` is the
answer before operation `i` is performed in state `s`, the result the answer after it. -/
def tickedSinceOff (ticked : Bool) (i : Instr) (s : State) : Bool :=
  match i with
  | .nop => ticked
  | .settw _ _ => ticked
  | .setds _ _ => ticked
  | .setbl _ _ => ticked
  | .wstep _ => ticked
  | .mstep => ticked && decide (s.mode ≠ .tune)
  | .crclr => ticked
  | .reset => false
  | .clk valid cmd =>
    (ticked || wrapsAt s) && !(valid && carriesMstep cmd && decide (s.mode = .tune))
  | .tick => true

/-- The same history over a list of operations. -/
def tickedAfter (ticked : Bool) : List Instr → State → Bool
  | [], _ => ticked
  | i :: rest, s =>
    match exec i s with
    | .next t => tickedAfter (tickedSinceOff ticked i s) rest t
    | .fault _ => ticked
    | .refused _ => ticked

/-- The command writes channel B's base level directly (R127). -/
def setsBaseB : Command → Bool
  | .nop => false
  | .settw _ _ => false
  | .setds _ _ => false
  | .setbl c _ => decide (c = .b)
  | .wstep _ => false
  | .mstep => false
  | .crclr => false

/-- The command word carries a `SETBL B`. -/
def wordSetsBaseB (w : CommandWord) : Bool :=
  match decodeCommand w with
  | .ok cmd => setsBaseB cmd
  | .error _ => false

/-- The input presents a `SETBL B` to the block. -/
def inputSetsBaseB : Input → Bool
  | .command w => wordSetsBaseB w
  | .edge w => !w.getLsbD 41 && w.getLsbD 40 && wordSetsBaseB (w.extractLsb' 0 40)
  | .tick => false

/-- `bl[B] = MODE_BASE[mode]`, and no input still to come is a `SETBL B` (R127). -/
def State.modeBaseKept (s : State) : Prop :=
  s.chB.bl = modeBase s.mode ∧ ∀ i ∈ s.inputs, inputSetsBaseB i = false

/-- The elements the tick owns (R35): the accumulators, the outputs and the sub-counter agree. -/
def sameTickOwned (s t : State) : Prop :=
  (∀ c, (t.chan c).acc = (s.chan c).acc) ∧ (∀ c, (t.chan c).out = (s.chan c).out) ∧ t.tc = s.tc

/-- The elements the host owns (R35): tuning words, depth shifts, wave selects, base levels and the mode
agree. -/
def sameHostOwned (s t : State) : Prop :=
  (∀ c, (t.chan c).tw = (s.chan c).tw) ∧ (∀ c, (t.chan c).ds = (s.chan c).ds) ∧
    (∀ c, (t.chan c).ws = (s.chan c).ws) ∧ (∀ c, (t.chan c).bl = (s.chan c).bl) ∧ t.mode = s.mode

/-- The number of a channel (R8). -/
def chNum : Channel → Nat
  | .a => 0
  | .b => 1

/-- The command word with the given operation code, channel and operand, `RSV` zero (R81, R84). -/
def commandWordOf (op : Nat) (c : Channel) (data : Nat) : CommandWord :=
  BitVec.ofNat 40 (op * 2 ^ 36 + chNum c * 2 ^ 32 + data)

/-- Operation `i` performs command `cmd`: it is that command, or a clock edge that carries it. -/
def performs (i : Instr) (cmd : Command) : Prop :=
  i = Instr.ofCommand cmd ∨ ∃ w, i = .clk true w ∧ decodeCommand w = .ok cmd

/-- Operation `i` runs a tick in state `s` (R145). -/
def runsTick (i : Instr) (s : State) : Prop :=
  i = .tick ∨ ∃ valid w, i = .clk valid w ∧ s.presc.val = 509

/-- The ticks of one operation that advance the accumulators: those outside Off (R105, R137). -/
def liveTick (i : Instr) (s : State) : Nat :=
  match i with
  | .nop => 0
  | .settw _ _ => 0
  | .setds _ _ => 0
  | .setbl _ _ => 0
  | .wstep _ => 0
  | .mstep => 0
  | .crclr => 0
  | .reset => 0
  | .clk _ _ => if wrapsAt s = true ∧ s.mode ≠ .off then 1 else 0
  | .tick => if s.mode ≠ .off then 1 else 0

/-- The same over a list of operations. -/
def liveTicks : List Instr → State → Nat
  | [], _ => 0
  | i :: rest, s =>
    match exec i s with
    | .next t => liveTick i s + liveTicks rest t
    | .fault _ => 0
    | .refused _ => 0

/-- Equal on all elements but `presc` (R154); the inputs still to come are the outside world's. -/
def sameButPrescaler (s t : State) : Prop :=
  t.chA = s.chA ∧ t.chB = s.chB ∧ t.mode = s.mode ∧ t.tc = s.tc ∧ t.fc = s.fc ∧ t.rom = s.rom

end Sys2Proof.Machine
end

