-- ==== Sys2Proof/Certificates/Slice0/Obligations.lean ====
section
/-! DEFINITION. The statements for the provers, from the numbered rules of `spec/`. A number written `<n>`
beside "log" is a row of the assumption log. -/

open Sys2Proof Sys2Proof.Machine

/-! ## Encoding -/

/-- Words written out from the tables of the spec (R84, R87, vectors V-ENC) decode to what they stand
for, ignored bits included; a reserved code is no operation. -/
def Obligations.WrittenOutWordsDecode : Prop :=
  decodeTableWord 40 0x0000000000 = some .nop ∧
  decodeTableWord 40 0x1100002001 = some (.settw .b 8193) ∧
  decodeTableWord 40 0x1E00002001 = some (.settw .a 8193) ∧
  decodeTableWord 40 0x21FFFFFFFF = some (.setds .b 0xFFFFFFFF) ∧
  decodeTableWord 40 0x30000000C8 = some (.setbl .a 200) ∧
  decodeTableWord 40 0x41DEADBEEF = some (.wstep .b) ∧
  decodeTableWord 40 0x5123456789 = some .mstep ∧
  decodeTableWord 40 0x6EFFFFFFFF = some .crclr ∧
  decodeTableWord 40 0x7000000000 = none ∧
  decodeTableWord 40 0xF1FFFFFFFF = none ∧
  decodeTableWord 48 0x20000000000 = some .reset ∧
  decodeTableWord 48 0x15000000000 = some (.clk true 0x5000000000)

/-- R82: the operation code, the channel and the operand are read from their bits, and every word is one
of the seven commands or a reserved code. Numbers stand for the bits: `OP` is bits 39 to 36. -/
def Obligations.CommandWordFieldsDecode : Prop :=
  ∀ w : CommandWord,
    let op := w.toNat / 2 ^ 36
    let ch : Channel := if w.toNat / 2 ^ 32 % 2 = 1 then .b else .a
    let data : Word := BitVec.ofNat 32 (w.toNat % 2 ^ 32)
    decodeCommand w =
      if op = 0 then .ok .nop
      else if op = 1 then .ok (.settw ch data)
      else if op = 2 then .ok (.setds ch data)
      else if op = 3 then .ok (.setbl ch data)
      else if op = 4 then .ok (.wstep ch)
      else if op = 5 then .ok .mstep
      else if op = 6 then .ok .crclr
      else .error (.reservedOp (BitVec.ofNat 4 op))

/-- Decode and encode agree on every operation with every operand: no bit of an encoding is dropped. The
tick, which no word selects, is carried by an event of its own (log 4). -/
def Obligations.DecodeOfEncodeIsTheOperation : Prop :=
  ∀ i : Instr, decodeInput (encode i) = .ok i

/-- Encoding what a word decodes to gives that word in canonical form: every ignored bit zero, every other
bit kept (R81, R82). So two words with one meaning differ in ignored bits only. -/
def Obligations.EncodeOfDecodeIsCanonical : Prop :=
  ∀ (w : CommandWord) (cmd : Command), decodeCommand w = .ok cmd →
    encodeCommand cmd = w &&& ~~~(ignoredMask (w.extractLsb' 36 4)) ∧
      canonicalWord (encodeCommand cmd) = true

/-- R87: which operation a clock edge performs, by the bits of the step word; no step word selects
`TICK`. -/
def Obligations.StepWordPatterns : Prop :=
  ∀ w : StepWord,
    decodeStepWord w =
      (if w.toNat / 2 ^ 41 = 1 then .reset
       else .clk (decide (w.toNat / 2 ^ 40 % 2 = 1)) (BitVec.ofNat 40 (w.toNat % 2 ^ 40))) ∧
    decodeStepWord w ≠ .tick

/-! ## Commands: result, frame and completion in one equation -/

/-- R150: `NOP` changes nothing, whatever its ignored bits hold; on a clock edge it is an idle port. -/
def Obligations.NopChangesNothing : Prop :=
  ∀ s : State, exec .nop s = .next s ∧
    (∀ w : CommandWord, w.toNat < 2 ^ 36 → performInput (.command w) s = .next s) ∧
    (∀ w w' : CommandWord, w.toNat < 2 ^ 36 → exec (.clk true w) s = exec (.clk false w') s)

/-- R85: a reserved code (`OP` 0x7 to 0xF) changes no state element; on a clock edge it is an idle port. -/
def Obligations.ReservedCodeChangesNothing : Prop :=
  ∀ (s : State) (w w' : CommandWord), 7 * 2 ^ 36 ≤ w.toNat →
    performInput (.command w) s = .next s ∧ exec (.clk true w) s = exec (.clk false w') s

/-- R103: `SETTW c, v` writes the 32 bits of `v` to `tw[c]` and nothing else; its canonical word performs
it. -/
def Obligations.SettwWritesTuningWordOnly : Prop :=
  ∀ (c : Channel) (v : Word) (s : State),
    exec (.settw c v) s = .next (match c with
      | .a => { s with chA := { s.chA with tw := v } }
      | .b => { s with chB := { s.chB with tw := v } }) ∧
    performInput (.command (commandWordOf 1 c v.toNat)) s = exec (.settw c v) s

/-- R126: `SETDS c, v` writes `clamp(sint32(v), 0, 8)` to `ds[c]` and nothing else; its canonical word
performs it. -/
def Obligations.SetdsWritesClampedDepthOnly : Prop :=
  ∀ (c : Channel) (v : Word) (s : State),
    (∃ d : DepthShift, (d.val : Int) = max 0 (min 8 (if v.toNat < 2 ^ 31 then (v.toNat : Int)
        else (v.toNat : Int) - 2 ^ 32)) ∧
      exec (.setds c v) s = .next (match c with
        | .a => { s with chA := { s.chA with ds := d } }
        | .b => { s with chB := { s.chB with ds := d } })) ∧
    performInput (.command (commandWordOf 2 c v.toNat)) s = exec (.setds c v) s

/-- R127: `SETBL c, v` writes `min(v, 255)` to `bl[c]` and nothing else; its canonical word performs it. -/
def Obligations.SetblWritesSaturatedBaseOnly : Prop :=
  ∀ (c : Channel) (v : Word) (s : State),
    (∃ b : Byte, b.toNat = min v.toNat 255 ∧
      exec (.setbl c v) s = .next (match c with
        | .a => { s with chA := { s.chA with bl := b } }
        | .b => { s with chB := { s.chB with bl := b } })) ∧
    performInput (.command (commandWordOf 3 c v.toNat)) s = exec (.setbl c v) s

/-- R112: `WSTEP c` advances `ws[c]` modulo 9 and changes nothing else; any word with `OP` 4 and that
channel performs it; nine in a row restore the state. -/
def Obligations.WstepAdvancesWaveSelectOnly : Prop :=
  ∀ (c : Channel) (s : State),
    (∃ k : WaveSelect, k.val = ((s.chan c).ws.val + 1) % 9 ∧
      exec (.wstep c) s = .next (match c with
        | .a => { s with chA := { s.chA with ws := k } }
        | .b => { s with chB := { s.chB with ws := k } })) ∧
    (∀ w : CommandWord, w.toNat / 2 ^ 36 = 4 → w.toNat / 2 ^ 32 % 2 = chNum c →
      performInput (.command w) s = exec (.wstep c) s) ∧
    execAll (List.replicate 9 (.wstep c)) s = .next s

/-- R138, R139: `MSTEP` advances the mode modulo 4 and writes channel B's base level for the new mode,
nothing else; any word with `OP` 5 performs it. -/
def Obligations.MstepAdvancesModeAndBase : Prop :=
  ∀ s : State,
    (∃ (m : Mode) (b : Byte), m.index.toNat = (s.mode.index.toNat + 1) % 4 ∧
      b.toNat = (if m.index.toNat = 1 then 50 else if m.index.toNat = 2 then 10 else 0) ∧
      exec .mstep s = .next { s with mode := m, chB := { s.chB with bl := b } }) ∧
    (∀ w : CommandWord, w.toNat / 2 ^ 36 = 5 → performInput (.command w) s = exec .mstep s)

/-- Four `MSTEP` in a row restore the mode, and channel B's base level becomes the mode's own, whatever a
`SETBL B` left there; nothing else changes (the corner case of R138). -/
def Obligations.FourMstepsRestoreTheMode : Prop :=
  ∀ s : State, ∃ b : Byte,
    b.toNat = (match s.mode with | .off => 0 | .fx => 50 | .drone => 10 | .tune => 0) ∧
    execAll (List.replicate 4 .mstep) s = .next { s with chB := { s.chB with bl := b } }

/-- R149: `CRCLR` zeroes the flag count, unconditionally, and nothing else (`tc` keeps its value);
`cr_ready` falls; any word with `OP` 6 performs it; two in a row are as one. -/
def Obligations.CrclrClearsFlagCountOnly : Prop :=
  ∀ s : State, exec .crclr s = .next { s with fc := 0 } ∧ crReadyPin { s with fc := 0 } = false ∧
    (∀ w : CommandWord, w.toNat / 2 ^ 36 = 6 → performInput (.command w) s = exec .crclr s) ∧
    execAll [.crclr, .crclr] s = exec .crclr s

/-- `SETBL B` and `MSTEP` both write `bl[B]`: the later one wins (R213, which the spec infers from R127 and
R138). -/
def Obligations.LaterBaseWriteWins : Prop :=
  ∀ (v : Word) (s : State), execAll [.setbl .b v, .mstep] s = exec .mstep s ∧
    ∃ t, execAll [.mstep, .setbl .b v] s = .next t ∧ t.chB.bl.toNat = min v.toNat 255 ∧
      t.mode.index.toNat = (s.mode.index.toNat + 1) % 4

/-! ## RESET, CLK and TICK -/

/-- R37, R200: `RESET` puts every element at zero and the mode at Off, from any state; the ROM stays, and
the pins show the reset values. Every step word with `rst = 1` performs it and nothing else; several are
as one. -/
def Obligations.ResetZeroesEveryElement : Prop :=
  ∀ s : State,
    (∃ t, exec .reset s = .next t ∧
      t.chA = { acc := 0, tw := 0, ds := 0, bl := 0, ws := 0, out := 0 } ∧
      t.chB = { acc := 0, tw := 0, ds := 0, bl := 0, ws := 0, out := 0 } ∧
      t.mode = .off ∧ t.tc = 0 ∧ t.fc = 0 ∧ t.presc = 0 ∧ t.rom = s.rom ∧
      ∀ rst, pinsOf rst t = ⟨0, 0, 0, false, false⟩) ∧
    (∀ w : StepWord, 2 ^ 41 ≤ w.toNat → performInput (.edge w) s = exec .reset s) ∧
    execAll [.reset, .reset] s = exec .reset s

/-- What the machine holds after reset, before any operation: the values of R37. -/
def Obligations.ResetStateValues : Prop :=
  exec .reset State.reset = .next State.reset ∧
    (∀ c, State.reset.chan c = { acc := 0, tw := 0, ds := 0, bl := 0, ws := 0, out := 0 }) ∧
    State.reset.mode = .off ∧ State.reset.tc = 0 ∧ State.reset.fc = 0 ∧ State.reset.presc = 0

/-- R145, R151: a clock edge advances the prescaler, or at 509 performs the tick and returns it to 0; then
the command on the pins, if any, is performed on the state that left; it always completes. With `rst = 1`
neither is performed, `RESET` alone happens. -/
def Obligations.ClockEdgeTicksThenCommands : Prop :=
  (∀ (w : StepWord) (s : State), 2 ^ 41 ≤ w.toNat → performInput (.edge w) s = exec .reset s) ∧
  ∀ (valid : Bool) (cmd : CommandWord) (s : State), ∃ t,
    (if s.presc.val = 509 then
       ∃ u, exec .tick s = .next u ∧ t = { u with presc := 0 }
     else ∃ p : Prescaler, p.val = s.presc.val + 1 ∧ t = { s with presc := p }) ∧
    exec (.clk valid cmd) s = (if valid = true then performInput (.command cmd) t else .next t) ∧
    ∃ t', exec (.clk valid cmd) s = .next t'

/-- On a tick's own edge a `SETTW` is performed after the tick: the tick used the old tuning word (R151). -/
def Obligations.TickEdgeUsesOldTuningWord : Prop :=
  ∀ (c : Channel) (v : Word) (s : State), s.presc.val = 509 → s.mode ≠ .off →
    ∃ t, exec (.clk true (commandWordOf 1 c v.toNat)) s = .next t ∧
      (t.chan c).acc.toNat = ((s.chan c).acc.toNat + (s.chan c).tw.toNat) % 2 ^ 32 ∧
      (t.chan c).tw = v ∧ t.presc.val = 0

/-- A `CRCLR` on the edge of a tick clears the count that tick may just have incremented (R149, R151). -/
def Obligations.ClearOnTickEdgeWins : Prop :=
  ∀ (c : Channel) (d : Word) (s : State), s.presc.val = 509 →
    ∃ t, exec (.clk true (commandWordOf 6 c d.toNat)) s = .next t ∧ t.fc = 0 ∧
      t.tc.val = (s.tc.val + 1) % 125

/-- R146: the whole effect of one tick in every state. In Off the outputs are zero and the accumulators
hold; otherwise each accumulator takes its sum, the sample is read at the top 8 bits of that sum, and each
output is the combiner's. In every mode the divider steps. Everything else is unchanged. -/
def Obligations.TickWholeEffect : Prop :=
  ∀ s : State, ∃ t, exec .tick s = .next t ∧
    (if s.mode = .off then
       t.chA = { s.chA with out := 0 } ∧ t.chB = { s.chB with out := 0 }
     else
       ∃ a b : Word, ∃ xa xb oa ob : Byte,
         a.toNat = (s.chA.acc.toNat + s.chA.tw.toNat) % 2 ^ 32 ∧
         b.toNat = (s.chB.acc.toNat + s.chB.tw.toNat) % 2 ^ 32 ∧
         xa = romRead s.rom s.chA.ws (BitVec.ofNat 8 (a.toNat / 2 ^ 24)) ∧
         xb = romRead s.rom s.chB.ws (BitVec.ofNat 8 (b.toNat / 2 ^ 24)) ∧
         (oa.toNat : Int) = max 0 ((s.chA.bl.toNat : Int) - (xa.toNat / 2 ^ s.chA.ds.val : Nat)) ∧
         ob.toNat = min 255 (s.chB.bl.toNat + xb.toNat / 2 ^ s.chB.ds.val) ∧
         t.chA = { s.chA with acc := a, out := oa } ∧ t.chB = { s.chB with acc := b, out := ob }) ∧
    (if s.tc.val = 124 then t.tc.val = 0 ∧ t.fc.toNat = min (s.fc.toNat + 1) 255
     else t.tc.val = s.tc.val + 1 ∧ t.fc = s.fc) ∧
    t.mode = s.mode ∧ t.presc = s.presc ∧ t.inputs = s.inputs ∧ t.rom = s.rom

/-- The two lanes are independent: what a tick leaves in a channel depends on that channel's registers,
the mode and the ROM alone (R146). -/
def Obligations.TickLanesAreIndependent : Prop :=
  ∀ (c : Channel) (s s' : State), s.mode = s'.mode → s.rom = s'.rom → s.chan c = s'.chan c →
    ∃ t t', exec .tick s = .next t ∧ exec .tick s' = .next t' ∧ t.chan c = t'.chan c

/-- An `MSTEP` into Off leaves the outputs; the next tick zeroes them (R136; the spec infers R211 from
it). -/
def Obligations.OutputsLagTheMode : Prop :=
  ∀ s : State, s.mode = .tune →
    ∃ t u, exec .mstep s = .next t ∧ t.mode = .off ∧ t.chA.out = s.chA.out ∧ t.chB.out = s.chB.out ∧
      exec .tick t = .next u ∧ u.silent

/-- R33: the five pins as functions of the state. -/
def Obligations.PinsShowTheState : Prop :=
  ∀ (rst : Bool) (s : State),
    (pinsOf rst s).outA = (s.chan .a).out ∧ (pinsOf rst s).outB = (s.chan .b).out ∧
    (pinsOf rst s).modeO.toNat = (match s.mode with | .off => 0 | .fx => 1 | .drone => 2 | .tune => 3) ∧
    ((pinsOf rst s).crReady = true ↔ 26 ≤ s.fc.toNat) ∧
    ((pinsOf rst s).tickO = true ↔ s.presc.val = 509 ∧ rst = false)

/-! ## The ROM -/

/-- R61: the entry (`sel`, `idx`) is the byte at flat address `sel * 256 + idx`, every flat address up to
2303 is one entry's, and the addresses from 2304 up do not exist. -/
def Obligations.FlatAddressesAreTheEntries : Prop :=
  ∀ m : Memory,
    (∀ (sel : WaveSelect) (idx : Byte), flatAddress sel idx = sel.val * 256 + idx.toNat ∧
      flatAddress sel idx ≤ 2303 ∧ memRead m (flatAddress sel idx) = some (romRead m sel idx)) ∧
    (∀ addr, addr ≤ 2303 → ∃ sel idx, flatAddress sel idx = addr) ∧
    (∀ addr, 2304 ≤ addr → memRead m addr = none)

/-- R62: nothing writes the ROM: no operation, and no run of any length. -/
def Obligations.RomIsNeverWritten : Prop :=
  (∀ (i : Instr) (s : State), ∃ t, exec i s = .next t ∧ t.rom = s.rom ∧
    ∀ sel idx, romRead t.rom sel idx = romRead s.rom sel idx) ∧
  (∀ (n : Nat) (s : State), ∃ t : State,
    Host.Core.run Sys2Proof.core n s = Host.Outcome.next t ∧ t.rom = s.rom)

/-! ## Steps and runs -/

/-- A step takes the input at the pins and runs the operation it decodes to on the state without it; a
reserved code only is taken (R85). That the schedule of inputs is held in the state is the model's own
(log 1). -/
def Obligations.StepRunsTheDecodedOperation : Prop :=
  ∀ (s : State) (i : Input) (rest : List Input), s.inputs = i :: rest →
    (∀ op, decodeInput i = .ok op → step s = exec op { s with inputs := rest }) ∧
    (∀ e, decodeInput i = .error e → step s = .next { s with inputs := rest })

/-- The word placed by `withFetchWord` is what the next step runs, on the state it was placed in: the
model's own (log 3). -/
def Obligations.PlacedWordIsRunNext : Prop :=
  ∀ (s : State) (nbits w : Nat) (op : Instr),
    decodeTableWord nbits w = some op → step (s.withFetchWord nbits w) = exec op s

/-- With no input left a step is an idle clock edge: the block free-runs. The model's own choice (log 2). -/
def Obligations.FreeRunWithoutInputs : Prop :=
  ∀ s : State, s.inputs = [] → step s = exec (.clk false 0) s

/-- A run performs the inputs at the head of the list in order, one a step: the model's own way of holding
the schedule (log 1). -/
def Obligations.RunPerformsInputsInOrder : Prop :=
  ∀ (l rest : List Input) (s : State), s.inputs = l ++ rest →
    Host.Core.run Sys2Proof.core l.length s = performAll l { s with inputs := rest }

/-- Nothing stops the block: every operation, every input and every run has a next state (R180, R191). -/
def Obligations.NothingEverStops : Prop :=
  (∀ (i : Instr) (s : State), ∃ t, exec i s = .next t) ∧
  (∀ (i : Input) (s : State), ∃ t, performInput i s = .next t) ∧
  (∀ (n : Nat) (s : State), ∃ t : State, Host.Core.run Sys2Proof.core n s = Host.Outcome.next t)

/-- Exactly one tick in every 510 clock edges, at a fixed place among them (R145): `n` idle edges perform
`(presc + n) / 510` ticks and leave `presc` at `(presc + n) mod 510`. -/
def Obligations.OneTickPer510Edges : Prop :=
  ∀ (n : Nat) (s : State), ∃ (u : State) (p : Prescaler), p.val = (s.presc.val + n) % 510 ∧
    execAll (List.replicate ((s.presc.val + n) / 510) .tick) s = .next u ∧
    execAll (List.replicate n (.clk false 0)) s = .next { u with presc := p }

/-- A clock-level run and the event-level trace it determines end in the same state on every element but
the prescaler (R154, which the spec infers from R145 and R151). -/
def Obligations.ClockRunRefinesEventTrace : Prop :=
  ∀ (ws : List StepWord) (s : State), ∃ t u,
    performAll (ws.map .edge) s = .next t ∧ performAll (eventTrace ws s.presc) s = .next u ∧
    sameButPrescaler t u ∧ t.inputs = u.inputs ∧ u.presc.val ≤ 509

/-! ## Laws of the datapath -/

/-- The combiner's output lies between 0 and the base level for channel A, between the base level and 255
for channel B (R124, which the spec infers from R121 and R122). -/
def Obligations.CombinerOutputInRange : Prop :=
  ∀ (r : ChannelRegs) (x : Byte),
    (combOut .a r x).toNat ≤ r.bl.toNat ∧ r.bl.toNat ≤ (combOut .b r x).toNat ∧
      ∀ c, (combOut c r x).toNat ≤ 255

/-- Raising the depth shift by one moves the output no farther from the base level, and the distance is
`min(b, s >> d)` under `SUB` and `min(255 - b, s >> d)` under `ADD` (R125, which the spec infers from R120,
R121 and R122). -/
def Obligations.DepthShiftIsMonotone : Prop :=
  ∀ (p : Polarity) (b x : Byte) (d d' : DepthShift), d'.val = d.val + 1 →
    (((combine p b (depthScale x d')).toNat : Int) - b.toNat).natAbs ≤
      (((combine p b (depthScale x d)).toNat : Int) - b.toNat).natAbs ∧
    (((combine p b (depthScale x d)).toNat : Int) - b.toNat).natAbs =
      (match p with
       | .sub => min b.toNat (x.toNat / 2 ^ d.val)
       | .add => min (255 - b.toNat) (x.toNat / 2 ^ d.val))

/-- The accumulator's closed form (R105, which the spec infers from R100 and R146; R137): over any
sequence of operations without a `RESET` or a `SETTW` of channel `c`, the accumulator advances by the
tuning word once for each tick outside Off, with wrap-around, and by nothing else. -/
def Obligations.AccumulatorClosedForm : Prop :=
  ∀ (c : Channel) (l : List Instr) (s : State),
    (∀ i ∈ l, i ≠ .reset ∧ ∀ v, ¬ performs i (.settw c v)) →
    ∃ t, execAll l s = .next t ∧ (t.chan c).tw = (s.chan c).tw ∧
      (t.chan c).acc.toNat =
        ((s.chan c).acc.toNat + liveTicks l s * (s.chan c).tw.toNat) % 2 ^ 32

/-- The sequence of accumulator values has period `2^32 / gcd(T, 2^32)` ticks (inferred in R105). -/
def Obligations.PhasePeriod : Prop :=
  ∀ (c : Channel) (n : Nat) (s : State), s.mode ≠ .off →
    ∃ t, execAll (List.replicate n .tick) s = .next t ∧
      ((t.chan c).acc = (s.chan c).acc ↔
        2 ^ 32 / Nat.gcd (s.chan c).tw.toNat (2 ^ 32) ∣ n)

/-- With `T = 2^24` from phase 0 the index after the `n`-th tick is `n mod 256` (inferred in R105). -/
def Obligations.FullCycleIndex : Prop :=
  ∀ (c : Channel) (n : Nat) (s : State), s.mode ≠ .off → (s.chan c).acc = 0 →
    (s.chan c).tw = BitVec.ofNat 32 (2 ^ 24) →
    ∃ t, execAll (List.replicate n .tick) s = .next t ∧ (phaseIndexWire t c).toNat = n % 256

/-- In Off the phase holds for any number of ticks, and the first tick out of Off resumes from it (R137). -/
def Obligations.OffHoldsThePhase : Prop :=
  ∀ (c : Channel) (n : Nat) (s : State), s.mode = .off →
    ∃ t, execAll (List.replicate n .tick ++ [.mstep, .tick]) s = .next t ∧
      (t.chan c).acc.toNat = ((s.chan c).acc.toNat + (s.chan c).tw.toNat) % 2 ^ 32 ∧
      t.tc.val = (s.tc.val + n + 1) % 125

/-- A channel at depth shift 8 puts out its base level at every tick outside Off, whatever the ROM holds
(R120, R123). The document's end-to-end scenario E7 is channel B in Drone at base level 10. -/
def Obligations.FullDepthShiftGivesTheBase : Prop :=
  ∀ (c : Channel) (n : Nat) (s : State), s.mode ≠ .off → (s.chan c).ds.val = 8 →
    ∃ t, execAll (List.replicate (n + 1) .tick) s = .next t ∧
      (match c with | .a => outAPin t | .b => outBPin t) = (s.chan c).bl

/-! ## The control-rate divider -/

/-- The sub-counter and the flag count after `n` ticks, in every mode (R147, R148). -/
def Obligations.DividerClosedForm : Prop :=
  ∀ (n : Nat) (s : State), ∃ t, execAll (List.replicate n .tick) s = .next t ∧
    t.tc.val = (s.tc.val + n) % 125 ∧
    t.fc.toNat = min 255 (s.fc.toNat + (s.tc.val + n) / 125)

/-- From `fc = 0`, `tc = 0` the pin `cr_ready` is 1 from the 3250th tick on, and stays 1 while the host
does not clear the count (R148). -/
def Obligations.ControlReadyFromTick3250 : Prop :=
  ∀ (n : Nat) (s : State), s.tc.val = 0 → s.fc = 0 →
    ∃ t, execAll (List.replicate n .tick) s = .next t ∧ (crReadyPin t = true ↔ 3250 ≤ n)

/-- After a `CRCLR` the pin rises at the 26th following flag, however many flags were discarded, on the
125-tick grid that `tc` keeps (R149; the spec infers R207 from it and R148). -/
def Obligations.ReadyRisesAt26thFlagAfterClear : Prop :=
  ∀ (n : Nat) (s : State), ∃ t,
    execAll (.crclr :: List.replicate n .tick) s = .next t ∧
      (crReadyPin t = true ↔ 3250 ≤ s.tc.val + n)

/-! ## Whole-machine rules -/

/-- The ownership partition (R35, R185): no command, reserved code included, writes what the tick owns,
the prescaler or the ROM; no tick writes what the host owns. -/
def Obligations.OwnershipPartition : Prop :=
  (∀ (w : CommandWord) (s : State), ∃ t, performInput (.command w) s = .next t ∧
    sameTickOwned s t ∧ t.presc = s.presc ∧ t.rom = s.rom) ∧
  (∀ s : State, ∃ t, exec .tick s = .next t ∧ sameHostOwned s t ∧ t.presc = s.presc)

/-- Who may write each element, over all operations but `RESET` (R21 to R31): an element changes only where
its writer was performed. -/
def Obligations.EveryElementHasItsWriters : Prop :=
  ∀ (i : Instr) (s t : State), exec i s = .next t → i ≠ .reset →
    (∀ c, (t.chan c).acc ≠ (s.chan c).acc → runsTick i s ∧ s.mode ≠ .off) ∧
    (∀ c, (t.chan c).tw ≠ (s.chan c).tw → ∃ v, performs i (.settw c v)) ∧
    (∀ c, (t.chan c).ds ≠ (s.chan c).ds → ∃ v, performs i (.setds c v)) ∧
    (∀ c, (t.chan c).bl ≠ (s.chan c).bl →
      (∃ v, performs i (.setbl c v)) ∨ (c = .b ∧ performs i .mstep)) ∧
    (∀ c, (t.chan c).ws ≠ (s.chan c).ws → performs i (.wstep c)) ∧
    (∀ c, (t.chan c).out ≠ (s.chan c).out → runsTick i s) ∧
    (t.mode ≠ s.mode → performs i .mstep) ∧
    (t.tc ≠ s.tc → runsTick i s) ∧
    (t.fc ≠ s.fc → runsTick i s ∨ performs i .crclr) ∧
    (t.presc ≠ s.presc → ∃ valid w, i = .clk valid w)

/-- R36, which the spec infers from R23 to R32, R124 and R136: in every state reachable from `RESET` by
any sequence of operations every element is in its legal range, and if the mode is Off and a tick has run
since the mode last became Off, or since `RESET`, both outputs are zero. The legal ranges hold of every
`State` by its types (log 8), so the last clause, R36 (h), is what this statement adds; its step form is
`SilenceInOffIsKept`. -/
def Obligations.ReachableStatesAreLegal : Prop :=
  ∀ (l : List Instr) (s r : State), exec .reset s = .next r →
    ∃ t, execAll l r = .next t ∧ t.legal ∧
      (tickedAfter false l r = true → t.mode = .off → t.silent)

/-- Every operation keeps R36 (h), in every state and with every history (inferred from R136). -/
def Obligations.SilenceInOffIsKept : Prop :=
  ∀ (ticked : Bool) (i : Instr) (s t : State),
    (ticked = true → s.mode = .off → s.silent) → exec i s = .next t →
    (tickedSinceOff ticked i s = true → t.mode = .off → t.silent)

/-- R127: while no `SETBL B` is presented, channel B's base level is the mode's own, and every step keeps
that. -/
def Obligations.ModeBaseRelationIsKept : Prop :=
  ∀ s t : State, s.modeBaseKept → step s = .next t → t.modeBaseKept

/-- The state after reset meets that relation. -/
def Obligations.ModeBaseRelationAtReset : Prop := State.reset.modeBaseKept

/-- The named ROM bytes keep their canonical form at every step. The form is the model's own (log 6). -/
def Obligations.MemoryFormIsKept : Prop :=
  (∀ s t : State, s.rom.wf = true → step s = .next t → t.rom.wf = true) ∧ State.reset.rom.wf = true

/-! ## The host's contract -/

/-- R168: for a reading in range `DS_MAP` is `8 - (d >> 7)`, from 8 down to 1 and never 0, and a host that
sends the unclamped value gets the same depth stored. A host that does not clamp its readings either (R170)
sends a negative value from 1152 up, and the block's own clamp (R126) stores `clamp(8 - (d >> 7), 0, 8)`, as
far as the value fits 32 signed bits. -/
def Obligations.DepthMapOfTheHost : Prop :=
  ∀ (c : Channel) (d : Nat) (s : State),
    (d ≤ 1023 → (dsMap d).toNat = 8 - d / 128 ∧ 1 ≤ (dsMap d).toNat ∧ (dsMap d).toNat ≤ 8 ∧
      exec (.setds c (BitVec.ofInt 32 (8 - (d / 128 : Nat)))) s = exec (.setds c (dsMap d)) s) ∧
    (d / 128 ≤ 2 ^ 31 + 8 →
      ∃ k : DepthShift, (k.val : Int) = max 0 (min 8 (8 - (d / 128 : Nat))) ∧
        exec (.setds c (BitVec.ofInt 32 (8 - (d / 128 : Nat)))) s = .next (match c with
          | .a => { s with chA := { s.chA with ds := k } }
          | .b => { s with chB := { s.chB with ds := k } }))

/-- `TW_MAP` in exact arithmetic (R167): the integer nearest to `51^f / 50^f`, plus 8192, in its stated
range. -/
def Obligations.TuningMapOfTheHost : Prop :=
  ∀ f : Nat, f ≤ 1023 →
    8193 ≤ (exactTwMap f).toNat ∧ (exactTwMap f).toNat ≤ 628031428 ∧
      (2 * (((exactTwMap f).toNat : Int) - 8192) * 50 ^ f - 2 * 51 ^ f).natAbs ≤ 50 ^ f

/-- One whole control cycle with no tick between its commands (R171): the flag count is cleared, both
channels take their mapped values, each true edge steps once, channel B's base level is the new mode's after
a mode step (R138, R139) and unchanged without one, and all else is untouched. -/
def Obligations.ControlCycleEffect : Prop :=
  ∀ (twMap : Nat → Word) (r : RawControl) (s : State), ∃ t,
    execAll (ctrlCycle twMap r) s = .next t ∧ t.fc = 0 ∧
    t.chA.tw = twMap (clampReading r.readA.freqRaw) ∧
    t.chB.tw = twMap (clampReading r.readB.freqRaw) ∧
    t.chA.ds.val = 8 - clampReading r.readA.depthRaw / 128 ∧
    t.chB.ds.val = 8 - clampReading r.readB.depthRaw / 128 ∧
    t.chA.ws.val = (s.chA.ws.val + (if r.readA.waveEdge then 1 else 0)) % 9 ∧
    t.chB.ws.val = (s.chB.ws.val + (if r.readB.waveEdge then 1 else 0)) % 9 ∧
    t.mode.index.toNat = (s.mode.index.toNat + (if r.modeEdge then 1 else 0)) % 4 ∧
    t.chA.bl = s.chA.bl ∧ (r.modeEdge = false → t.chB.bl = s.chB.bl) ∧
    (r.modeEdge = true → t.chB.bl.toNat =
      (if t.mode.index.toNat = 1 then 50 else if t.mode.index.toNat = 2 then 10 else 0)) ∧
    sameTickOwned s t ∧ t.presc = s.presc ∧ t.rom = s.rom

/-- The pseudo-operations reach what they name (R89): `WSEL c, k` from table 0, `MODETO m` from Off. -/
def Obligations.PseudoOperationsReachTheirTarget : Prop :=
  (∀ (c : Channel) (k : WaveSelect) (s : State), (s.chan c).ws.val = 0 →
    ∃ t, execAll (wsel c k) s = .next t ∧ (t.chan c).ws = k ∧ t.mode = s.mode) ∧
  (∀ (m : Mode) (s : State), s.mode = .off →
    ∃ t, execAll (modeTo m) s = .next t ∧ t.mode = m)
end

