-- ==== Sys2Proof/Laws/Decode.lean ====
section
/-! SUPPORT. The fields and the packed words of the encoding as numbers: the fields a word has (R82), and
the number a packed command word (R81) or step word (R87) is. -/

namespace Sys2Proof

/-- One bit of a word, on its number. -/
theorem getLsbD_eq_decide {n : Nat} (w : BitVec n) (k : Nat) :
    w.getLsbD k = decide (w.toNat / 2 ^ k % 2 = 1) := by
  simp only [BitVec.getLsbD, Nat.testBit, Nat.shiftRight_eq_div_pow, Nat.one_and_eq_mod_two]
  rcases Nat.mod_two_eq_zero_or_one (w.toNat / 2 ^ k) with h | h <;> simp [h]

theorem opField_toNat (w : CommandWord) : (opField w).toNat = w.toNat / 2 ^ 36 := by
  have := w.isLt
  simp only [opField, BitVec.extractLsb'_toNat, Nat.shiftRight_eq_div_pow]
  omega

theorem chField_eq (w : CommandWord) : chField w = if w.toNat / 2 ^ 32 % 2 = 1 then .b else .a := by
  simp only [chField, getLsbD_eq_decide, decide_eq_true_eq]

theorem dataField_toNat (w : CommandWord) : (dataField w).toNat = w.toNat % 2 ^ 32 := by
  simp [dataField]

/-- The number of `{OP, 000, CH, DATA}`. -/
theorem packCommand_toNat (op : BitVec 4) (ch : BitVec 1) (d : Word) :
    (packCommand op ch d).toNat = op.toNat * 2 ^ 36 + ch.toNat * 2 ^ 32 + d.toNat := by
  have hop := op.isLt
  have hch := ch.isLt
  have hd := d.isLt
  have h1 : ch.toNat <<< 32 ||| d.toNat = ch.toNat * 2 ^ 32 + d.toNat := by
    rw [← Nat.shiftLeft_add_eq_or_of_lt hd, Nat.shiftLeft_eq]
  have h2 : op.toNat <<< 36 ||| (ch.toNat * 2 ^ 32 + d.toNat) =
      op.toNat * 2 ^ 36 + (ch.toNat * 2 ^ 32 + d.toNat) := by
    rw [← Nat.shiftLeft_add_eq_or_of_lt (by omega), Nat.shiftLeft_eq]
  show BitVec.toNat (op ++ (0#3 ++ (ch ++ d)) : BitVec (4 + (3 + (1 + 32)))) = _
  rw [BitVec.toNat_append, BitVec.toNat_append, BitVec.toNat_append, h1]
  simp only [BitVec.toNat_ofNat, Nat.zero_mod, Nat.zero_shiftLeft, Nat.zero_or, Nat.reduceAdd]
  rw [h2]
  omega

/-- The number of `{rst, cmd_valid, cmd}`. -/
theorem packStep_toNat (r v : Bool) (c : CommandWord) :
    (packStep r v c).toNat = r.toNat * 2 ^ 41 + v.toNat * 2 ^ 40 + c.toNat := by
  have hc := c.isLt
  have hv : v.toNat < 2 := Bool.toNat_lt v
  have h1 : v.toNat <<< 40 ||| c.toNat = v.toNat * 2 ^ 40 + c.toNat := by
    rw [← Nat.shiftLeft_add_eq_or_of_lt hc, Nat.shiftLeft_eq]
  have h2 : r.toNat <<< 41 ||| (v.toNat * 2 ^ 40 + c.toNat) =
      r.toNat * 2 ^ 41 + (v.toNat * 2 ^ 40 + c.toNat) := by
    rw [← Nat.shiftLeft_add_eq_or_of_lt (by omega), Nat.shiftLeft_eq]
  show BitVec.toNat (BitVec.ofBool r ++ (BitVec.ofBool v ++ c) : BitVec (1 + (1 + 40))) = _
  rw [BitVec.toNat_append, BitVec.toNat_append, BitVec.toNat_ofBool, BitVec.toNat_ofBool, h1]
  simp only [Nat.reduceAdd]
  rw [h2]
  omega

end Sys2Proof
end

