-- ==== Sys2Proof/Laws/Stages.lean ====
section
/-! SUPPORT. What each stage, operand form and counter computes, said once on numbers. -/

namespace Sys2Proof.Machine

theorem ncoNext_toNat (a t : Word) : (ncoNext a t).toNat = (a.toNat + t.toNat) % 2 ^ 32 := by
  simp [ncoNext]

theorem ncoNext_eq_add (a t : Word) : ncoNext a t = a + t := by
  apply BitVec.eq_of_toNat_eq
  rw [ncoNext_toNat, BitVec.toNat_add]

theorem phaseIndex_toNat (a : Word) : (phaseIndex a).toNat = a.toNat / 2 ^ 24 := by
  have h : a.toNat / 2 ^ 24 < 2 ^ 8 := by have := a.isLt; omega
  simp only [phaseIndex, Config.idxShift, BitVec.toNat_ofNat, Nat.shiftRight_eq_div_pow]
  exact Nat.mod_eq_of_lt h

theorem depthScale_toNat (s : Byte) (d : DepthShift) :
    (depthScale s d).toNat = s.toNat / 2 ^ d.val := by
  have h : s.toNat / 2 ^ d.val < 2 ^ 8 := lt_of_le_of_lt (Nat.div_le_self _ _) s.isLt
  simp only [depthScale, BitVec.toNat_ofNat, Nat.shiftRight_eq_div_pow]
  exact Nat.mod_eq_of_lt h

theorem combine_sub_toNat (b m : Byte) : (combine .sub b m).toNat = b.toNat - m.toNat := by
  have := b.isLt
  simp only [combine, BitVec.toNat_ofNat]
  omega

theorem combine_add_toNat (b m : Byte) :
    (combine .add b m).toNat = min 255 (b.toNat + m.toNat) := by
  simp only [combine, BitVec.toNat_ofNat]
  omega

theorem gate_off (oa ob : Byte) : gate .off oa ob = (0, 0) := rfl

theorem gate_of_ne_off {g : Mode} (h : g ≠ .off) (oa ob : Byte) : gate g oa ob = (oa, ob) := by
  cases g
  · exact absurd rfl h
  all_goals rfl

theorem depthOperand_val (v : Word) :
    ((depthOperand v).val : Int) = max 0 (min 8 v.toInt) := by
  simp only [depthOperand, clamp, Config.dsMax]
  omega

theorem baseOperand_toNat (v : Word) : (baseOperand v).toNat = min v.toNat 255 := by
  simp only [baseOperand, BitVec.toNat_ofNat]
  omega

theorem nextWave_val (k : WaveSelect) : (nextWave k).val = (k.val + 1) % 9 := rfl

theorem nextMode_index (m : Mode) : (nextMode m).index.toNat = (m.index.toNat + 1) % 4 := by
  cases m <;> rfl

theorem raiseFlag_toNat (n : Byte) : (raiseFlag n).toNat = min (n.toNat + 1) 255 := by
  simp only [raiseFlag, Config.fcMax, BitVec.toNat_ofNat]
  omega

theorem divNext_of_lt {t : TickCount} (h : t.val < 124) :
    (divNext t).1.val = t.val + 1 ∧ (divNext t).2 = false := by
  have h' : t.val + 1 < Config.tcPeriod := by simp only [Config.tcPeriod]; omega
  simp [divNext, h']

theorem divNext_of_last {t : TickCount} (h : t.val = 124) :
    (divNext t).1.val = 0 ∧ (divNext t).2 = true := by
  have h' : ¬ t.val + 1 < Config.tcPeriod := by simp only [Config.tcPeriod]; omega
  simp [divNext, h']

theorem TickCount.le_last (t : TickCount) : t.val ≤ 124 := Nat.lt_succ_iff.mp t.isLt

theorem Prescaler.le_last (p : Prescaler) : p.val ≤ 509 := Nat.lt_succ_iff.mp p.isLt

theorem DepthShift.le_max (d : DepthShift) : d.val ≤ 8 := Nat.lt_succ_iff.mp d.isLt

theorem WaveSelect.le_last (k : WaveSelect) : k.val ≤ 8 := Nat.lt_succ_iff.mp k.isLt

/-- What channel A's combiner puts out (R121, R123). -/
theorem combOut_a_toNat (r : ChannelRegs) (x : Byte) :
    (combOut .a r x).toNat = r.bl.toNat - x.toNat / 2 ^ r.ds.val := by
  rw [combOut, polarity, combine_sub_toNat, depthScale_toNat]

/-- What channel B's combiner puts out (R122, R123). -/
theorem combOut_b_toNat (r : ChannelRegs) (x : Byte) :
    (combOut .b r x).toNat = min 255 (r.bl.toNat + x.toNat / 2 ^ r.ds.val) := by
  rw [combOut, polarity, combine_add_toNat, depthScale_toNat]

end Sys2Proof.Machine
end

