-- ==== Sys2Proof/Laws/State.lean ====
section
/-! SUPPORT. One lemma per field per update of the state, so that no proof unfolds a record update. -/

namespace Sys2Proof.Machine

@[simp] theorem State.chan_a (s : State) : s.chan .a = s.chA := rfl
@[simp] theorem State.chan_b (s : State) : s.chan .b = s.chB := rfl

@[simp] theorem State.setChan_a_chA (s : State) (r : ChannelRegs) : (s.setChan .a r).chA = r := rfl
@[simp] theorem State.setChan_a_chB (s : State) (r : ChannelRegs) : (s.setChan .a r).chB = s.chB := rfl
@[simp] theorem State.setChan_b_chA (s : State) (r : ChannelRegs) : (s.setChan .b r).chA = s.chA := rfl
@[simp] theorem State.setChan_b_chB (s : State) (r : ChannelRegs) : (s.setChan .b r).chB = r := rfl

/-- Writing one channel's registers: that channel has them, the other keeps its own (R38). -/
theorem State.chan_setChan (s : State) (c d : Channel) (r : ChannelRegs) :
    (s.setChan c r).chan d = if d = c then r else s.chan d := by
  cases c <;> cases d <;> rfl

@[simp] theorem State.setChan_mode (s : State) (c : Channel) (r : ChannelRegs) :
    (s.setChan c r).mode = s.mode := by cases c <;> rfl
@[simp] theorem State.setChan_tc (s : State) (c : Channel) (r : ChannelRegs) :
    (s.setChan c r).tc = s.tc := by cases c <;> rfl
@[simp] theorem State.setChan_fc (s : State) (c : Channel) (r : ChannelRegs) :
    (s.setChan c r).fc = s.fc := by cases c <;> rfl
@[simp] theorem State.setChan_presc (s : State) (c : Channel) (r : ChannelRegs) :
    (s.setChan c r).presc = s.presc := by cases c <;> rfl
@[simp] theorem State.setChan_inputs (s : State) (c : Channel) (r : ChannelRegs) :
    (s.setChan c r).inputs = s.inputs := by cases c <;> rfl
@[simp] theorem State.setChan_rom (s : State) (c : Channel) (r : ChannelRegs) :
    (s.setChan c r).rom = s.rom := by cases c <;> rfl

@[simp] theorem State.setAcc_a_chA (s : State) (v : Word) :
    (s.setAcc .a v).chA = { s.chA with acc := v } := rfl
@[simp] theorem State.setAcc_a_chB (s : State) (v : Word) : (s.setAcc .a v).chB = s.chB := rfl
@[simp] theorem State.setAcc_b_chA (s : State) (v : Word) : (s.setAcc .b v).chA = s.chA := rfl
@[simp] theorem State.setAcc_b_chB (s : State) (v : Word) :
    (s.setAcc .b v).chB = { s.chB with acc := v } := rfl
/-- Writing `acc` of channel `c`, seen through either channel. -/
theorem State.chan_setAcc (s : State) (c d : Channel) (v : Word) :
    (s.setAcc c v).chan d = if d = c then { s.chan c with acc := v } else s.chan d := by
  cases c <;> cases d <;> rfl
@[simp] theorem State.setAcc_mode (s : State) (c : Channel) (v : Word) :
    (s.setAcc c v).mode = s.mode := by cases c <;> rfl
@[simp] theorem State.setAcc_tc (s : State) (c : Channel) (v : Word) :
    (s.setAcc c v).tc = s.tc := by cases c <;> rfl
@[simp] theorem State.setAcc_fc (s : State) (c : Channel) (v : Word) :
    (s.setAcc c v).fc = s.fc := by cases c <;> rfl
@[simp] theorem State.setAcc_presc (s : State) (c : Channel) (v : Word) :
    (s.setAcc c v).presc = s.presc := by cases c <;> rfl
@[simp] theorem State.setAcc_inputs (s : State) (c : Channel) (v : Word) :
    (s.setAcc c v).inputs = s.inputs := by cases c <;> rfl
@[simp] theorem State.setAcc_rom (s : State) (c : Channel) (v : Word) :
    (s.setAcc c v).rom = s.rom := by cases c <;> rfl

@[simp] theorem State.setTw_a_chA (s : State) (v : Word) :
    (s.setTw .a v).chA = { s.chA with tw := v } := rfl
@[simp] theorem State.setTw_a_chB (s : State) (v : Word) : (s.setTw .a v).chB = s.chB := rfl
@[simp] theorem State.setTw_b_chA (s : State) (v : Word) : (s.setTw .b v).chA = s.chA := rfl
@[simp] theorem State.setTw_b_chB (s : State) (v : Word) :
    (s.setTw .b v).chB = { s.chB with tw := v } := rfl
/-- Writing `tw` of channel `c`, seen through either channel. -/
theorem State.chan_setTw (s : State) (c d : Channel) (v : Word) :
    (s.setTw c v).chan d = if d = c then { s.chan c with tw := v } else s.chan d := by
  cases c <;> cases d <;> rfl
@[simp] theorem State.setTw_mode (s : State) (c : Channel) (v : Word) :
    (s.setTw c v).mode = s.mode := by cases c <;> rfl
@[simp] theorem State.setTw_tc (s : State) (c : Channel) (v : Word) :
    (s.setTw c v).tc = s.tc := by cases c <;> rfl
@[simp] theorem State.setTw_fc (s : State) (c : Channel) (v : Word) :
    (s.setTw c v).fc = s.fc := by cases c <;> rfl
@[simp] theorem State.setTw_presc (s : State) (c : Channel) (v : Word) :
    (s.setTw c v).presc = s.presc := by cases c <;> rfl
@[simp] theorem State.setTw_inputs (s : State) (c : Channel) (v : Word) :
    (s.setTw c v).inputs = s.inputs := by cases c <;> rfl
@[simp] theorem State.setTw_rom (s : State) (c : Channel) (v : Word) :
    (s.setTw c v).rom = s.rom := by cases c <;> rfl

@[simp] theorem State.setDs_a_chA (s : State) (v : DepthShift) :
    (s.setDs .a v).chA = { s.chA with ds := v } := rfl
@[simp] theorem State.setDs_a_chB (s : State) (v : DepthShift) : (s.setDs .a v).chB = s.chB := rfl
@[simp] theorem State.setDs_b_chA (s : State) (v : DepthShift) : (s.setDs .b v).chA = s.chA := rfl
@[simp] theorem State.setDs_b_chB (s : State) (v : DepthShift) :
    (s.setDs .b v).chB = { s.chB with ds := v } := rfl
/-- Writing `ds` of channel `c`, seen through either channel. -/
theorem State.chan_setDs (s : State) (c d : Channel) (v : DepthShift) :
    (s.setDs c v).chan d = if d = c then { s.chan c with ds := v } else s.chan d := by
  cases c <;> cases d <;> rfl
@[simp] theorem State.setDs_mode (s : State) (c : Channel) (v : DepthShift) :
    (s.setDs c v).mode = s.mode := by cases c <;> rfl
@[simp] theorem State.setDs_tc (s : State) (c : Channel) (v : DepthShift) :
    (s.setDs c v).tc = s.tc := by cases c <;> rfl
@[simp] theorem State.setDs_fc (s : State) (c : Channel) (v : DepthShift) :
    (s.setDs c v).fc = s.fc := by cases c <;> rfl
@[simp] theorem State.setDs_presc (s : State) (c : Channel) (v : DepthShift) :
    (s.setDs c v).presc = s.presc := by cases c <;> rfl
@[simp] theorem State.setDs_inputs (s : State) (c : Channel) (v : DepthShift) :
    (s.setDs c v).inputs = s.inputs := by cases c <;> rfl
@[simp] theorem State.setDs_rom (s : State) (c : Channel) (v : DepthShift) :
    (s.setDs c v).rom = s.rom := by cases c <;> rfl

@[simp] theorem State.setBl_a_chA (s : State) (v : Byte) :
    (s.setBl .a v).chA = { s.chA with bl := v } := rfl
@[simp] theorem State.setBl_a_chB (s : State) (v : Byte) : (s.setBl .a v).chB = s.chB := rfl
@[simp] theorem State.setBl_b_chA (s : State) (v : Byte) : (s.setBl .b v).chA = s.chA := rfl
@[simp] theorem State.setBl_b_chB (s : State) (v : Byte) :
    (s.setBl .b v).chB = { s.chB with bl := v } := rfl
/-- Writing `bl` of channel `c`, seen through either channel. -/
theorem State.chan_setBl (s : State) (c d : Channel) (v : Byte) :
    (s.setBl c v).chan d = if d = c then { s.chan c with bl := v } else s.chan d := by
  cases c <;> cases d <;> rfl
@[simp] theorem State.setBl_mode (s : State) (c : Channel) (v : Byte) :
    (s.setBl c v).mode = s.mode := by cases c <;> rfl
@[simp] theorem State.setBl_tc (s : State) (c : Channel) (v : Byte) :
    (s.setBl c v).tc = s.tc := by cases c <;> rfl
@[simp] theorem State.setBl_fc (s : State) (c : Channel) (v : Byte) :
    (s.setBl c v).fc = s.fc := by cases c <;> rfl
@[simp] theorem State.setBl_presc (s : State) (c : Channel) (v : Byte) :
    (s.setBl c v).presc = s.presc := by cases c <;> rfl
@[simp] theorem State.setBl_inputs (s : State) (c : Channel) (v : Byte) :
    (s.setBl c v).inputs = s.inputs := by cases c <;> rfl
@[simp] theorem State.setBl_rom (s : State) (c : Channel) (v : Byte) :
    (s.setBl c v).rom = s.rom := by cases c <;> rfl

@[simp] theorem State.setWs_a_chA (s : State) (v : WaveSelect) :
    (s.setWs .a v).chA = { s.chA with ws := v } := rfl
@[simp] theorem State.setWs_a_chB (s : State) (v : WaveSelect) : (s.setWs .a v).chB = s.chB := rfl
@[simp] theorem State.setWs_b_chA (s : State) (v : WaveSelect) : (s.setWs .b v).chA = s.chA := rfl
@[simp] theorem State.setWs_b_chB (s : State) (v : WaveSelect) :
    (s.setWs .b v).chB = { s.chB with ws := v } := rfl
/-- Writing `ws` of channel `c`, seen through either channel. -/
theorem State.chan_setWs (s : State) (c d : Channel) (v : WaveSelect) :
    (s.setWs c v).chan d = if d = c then { s.chan c with ws := v } else s.chan d := by
  cases c <;> cases d <;> rfl
@[simp] theorem State.setWs_mode (s : State) (c : Channel) (v : WaveSelect) :
    (s.setWs c v).mode = s.mode := by cases c <;> rfl
@[simp] theorem State.setWs_tc (s : State) (c : Channel) (v : WaveSelect) :
    (s.setWs c v).tc = s.tc := by cases c <;> rfl
@[simp] theorem State.setWs_fc (s : State) (c : Channel) (v : WaveSelect) :
    (s.setWs c v).fc = s.fc := by cases c <;> rfl
@[simp] theorem State.setWs_presc (s : State) (c : Channel) (v : WaveSelect) :
    (s.setWs c v).presc = s.presc := by cases c <;> rfl
@[simp] theorem State.setWs_inputs (s : State) (c : Channel) (v : WaveSelect) :
    (s.setWs c v).inputs = s.inputs := by cases c <;> rfl
@[simp] theorem State.setWs_rom (s : State) (c : Channel) (v : WaveSelect) :
    (s.setWs c v).rom = s.rom := by cases c <;> rfl

@[simp] theorem State.setOut_a_chA (s : State) (v : Byte) :
    (s.setOut .a v).chA = { s.chA with out := v } := rfl
@[simp] theorem State.setOut_a_chB (s : State) (v : Byte) : (s.setOut .a v).chB = s.chB := rfl
@[simp] theorem State.setOut_b_chA (s : State) (v : Byte) : (s.setOut .b v).chA = s.chA := rfl
@[simp] theorem State.setOut_b_chB (s : State) (v : Byte) :
    (s.setOut .b v).chB = { s.chB with out := v } := rfl
/-- Writing `out` of channel `c`, seen through either channel. -/
theorem State.chan_setOut (s : State) (c d : Channel) (v : Byte) :
    (s.setOut c v).chan d = if d = c then { s.chan c with out := v } else s.chan d := by
  cases c <;> cases d <;> rfl
@[simp] theorem State.setOut_mode (s : State) (c : Channel) (v : Byte) :
    (s.setOut c v).mode = s.mode := by cases c <;> rfl
@[simp] theorem State.setOut_tc (s : State) (c : Channel) (v : Byte) :
    (s.setOut c v).tc = s.tc := by cases c <;> rfl
@[simp] theorem State.setOut_fc (s : State) (c : Channel) (v : Byte) :
    (s.setOut c v).fc = s.fc := by cases c <;> rfl
@[simp] theorem State.setOut_presc (s : State) (c : Channel) (v : Byte) :
    (s.setOut c v).presc = s.presc := by cases c <;> rfl
@[simp] theorem State.setOut_inputs (s : State) (c : Channel) (v : Byte) :
    (s.setOut c v).inputs = s.inputs := by cases c <;> rfl
@[simp] theorem State.setOut_rom (s : State) (c : Channel) (v : Byte) :
    (s.setOut c v).rom = s.rom := by cases c <;> rfl

@[simp] theorem State.setMode_chA (s : State) (v : Mode) : (s.setMode v).chA = s.chA := rfl
@[simp] theorem State.setMode_chB (s : State) (v : Mode) : (s.setMode v).chB = s.chB := rfl
@[simp] theorem State.setMode_mode (s : State) (v : Mode) : (s.setMode v).mode = v := rfl
@[simp] theorem State.setMode_tc (s : State) (v : Mode) : (s.setMode v).tc = s.tc := rfl
@[simp] theorem State.setMode_fc (s : State) (v : Mode) : (s.setMode v).fc = s.fc := rfl
@[simp] theorem State.setMode_presc (s : State) (v : Mode) : (s.setMode v).presc = s.presc := rfl
@[simp] theorem State.setMode_inputs (s : State) (v : Mode) : (s.setMode v).inputs = s.inputs := rfl
@[simp] theorem State.setMode_rom (s : State) (v : Mode) : (s.setMode v).rom = s.rom := rfl
@[simp] theorem State.setMode_chan (s : State) (v : Mode) (c : Channel) :
    (s.setMode v).chan c = s.chan c := by cases c <;> rfl

@[simp] theorem State.setTc_chA (s : State) (v : TickCount) : (s.setTc v).chA = s.chA := rfl
@[simp] theorem State.setTc_chB (s : State) (v : TickCount) : (s.setTc v).chB = s.chB := rfl
@[simp] theorem State.setTc_mode (s : State) (v : TickCount) : (s.setTc v).mode = s.mode := rfl
@[simp] theorem State.setTc_tc (s : State) (v : TickCount) : (s.setTc v).tc = v := rfl
@[simp] theorem State.setTc_fc (s : State) (v : TickCount) : (s.setTc v).fc = s.fc := rfl
@[simp] theorem State.setTc_presc (s : State) (v : TickCount) : (s.setTc v).presc = s.presc := rfl
@[simp] theorem State.setTc_inputs (s : State) (v : TickCount) : (s.setTc v).inputs = s.inputs := rfl
@[simp] theorem State.setTc_rom (s : State) (v : TickCount) : (s.setTc v).rom = s.rom := rfl
@[simp] theorem State.setTc_chan (s : State) (v : TickCount) (c : Channel) :
    (s.setTc v).chan c = s.chan c := by cases c <;> rfl

@[simp] theorem State.setFc_chA (s : State) (v : Byte) : (s.setFc v).chA = s.chA := rfl
@[simp] theorem State.setFc_chB (s : State) (v : Byte) : (s.setFc v).chB = s.chB := rfl
@[simp] theorem State.setFc_mode (s : State) (v : Byte) : (s.setFc v).mode = s.mode := rfl
@[simp] theorem State.setFc_tc (s : State) (v : Byte) : (s.setFc v).tc = s.tc := rfl
@[simp] theorem State.setFc_fc (s : State) (v : Byte) : (s.setFc v).fc = v := rfl
@[simp] theorem State.setFc_presc (s : State) (v : Byte) : (s.setFc v).presc = s.presc := rfl
@[simp] theorem State.setFc_inputs (s : State) (v : Byte) : (s.setFc v).inputs = s.inputs := rfl
@[simp] theorem State.setFc_rom (s : State) (v : Byte) : (s.setFc v).rom = s.rom := rfl
@[simp] theorem State.setFc_chan (s : State) (v : Byte) (c : Channel) :
    (s.setFc v).chan c = s.chan c := by cases c <;> rfl

@[simp] theorem State.setPresc_chA (s : State) (v : Prescaler) : (s.setPresc v).chA = s.chA := rfl
@[simp] theorem State.setPresc_chB (s : State) (v : Prescaler) : (s.setPresc v).chB = s.chB := rfl
@[simp] theorem State.setPresc_mode (s : State) (v : Prescaler) : (s.setPresc v).mode = s.mode := rfl
@[simp] theorem State.setPresc_tc (s : State) (v : Prescaler) : (s.setPresc v).tc = s.tc := rfl
@[simp] theorem State.setPresc_fc (s : State) (v : Prescaler) : (s.setPresc v).fc = s.fc := rfl
@[simp] theorem State.setPresc_presc (s : State) (v : Prescaler) : (s.setPresc v).presc = v := rfl
@[simp] theorem State.setPresc_inputs (s : State) (v : Prescaler) : (s.setPresc v).inputs = s.inputs := rfl
@[simp] theorem State.setPresc_rom (s : State) (v : Prescaler) : (s.setPresc v).rom = s.rom := rfl
@[simp] theorem State.setPresc_chan (s : State) (v : Prescaler) (c : Channel) :
    (s.setPresc v).chan c = s.chan c := by cases c <;> rfl

@[simp] theorem State.setInputs_chA (s : State) (v : List Input) : (s.setInputs v).chA = s.chA := rfl
@[simp] theorem State.setInputs_chB (s : State) (v : List Input) : (s.setInputs v).chB = s.chB := rfl
@[simp] theorem State.setInputs_mode (s : State) (v : List Input) : (s.setInputs v).mode = s.mode := rfl
@[simp] theorem State.setInputs_tc (s : State) (v : List Input) : (s.setInputs v).tc = s.tc := rfl
@[simp] theorem State.setInputs_fc (s : State) (v : List Input) : (s.setInputs v).fc = s.fc := rfl
@[simp] theorem State.setInputs_presc (s : State) (v : List Input) : (s.setInputs v).presc = s.presc := rfl
@[simp] theorem State.setInputs_inputs (s : State) (v : List Input) : (s.setInputs v).inputs = v := rfl
@[simp] theorem State.setInputs_rom (s : State) (v : List Input) : (s.setInputs v).rom = s.rom := rfl
@[simp] theorem State.setInputs_chan (s : State) (v : List Input) (c : Channel) :
    (s.setInputs v).chan c = s.chan c := by cases c <;> rfl

/-- Two states with the same fields are the same state. -/
theorem State.eq_of_fields {s t : State} (hA : t.chA = s.chA) (hB : t.chB = s.chB)
    (hm : t.mode = s.mode) (htc : t.tc = s.tc) (hfc : t.fc = s.fc) (hp : t.presc = s.presc)
    (hi : t.inputs = s.inputs) (hr : t.rom = s.rom) : t = s := by
  cases s
  cases t
  simp_all

end Sys2Proof.Machine
end

