-- ==== Sys2Proof/Laws/Exec.lean ====
section
/-! SUPPORT. What each shared operation can do, said once: the parts of a tick, the parts of a clock edge,
the commands, and the step. Later proofs cite these and do not unfold the operations. -/

namespace Sys2Proof.Machine

/-! The arms of `exec`. -/

@[simp] theorem exec_nop (s : State) : exec .nop s = .next s := rfl
@[simp] theorem exec_settw (c : Channel) (v : Word) (s : State) :
    exec (.settw c v) s = .next (s.setTw c v) := rfl
@[simp] theorem exec_setds (c : Channel) (v : Word) (s : State) :
    exec (.setds c v) s = .next (s.setDs c (depthOperand v)) := rfl
@[simp] theorem exec_setbl (c : Channel) (v : Word) (s : State) :
    exec (.setbl c v) s = .next (s.setBl c (baseOperand v)) := rfl
@[simp] theorem exec_wstep (c : Channel) (s : State) :
    exec (.wstep c) s = .next (s.setWs c (nextWave (s.chan c).ws)) := rfl
@[simp] theorem exec_mstep (s : State) :
    exec .mstep s = .next ((s.setMode (nextMode s.mode)).setBl .b (modeBase (nextMode s.mode))) := rfl
@[simp] theorem exec_crclr (s : State) : exec .crclr s = .next (s.setFc 0) := rfl
@[simp] theorem exec_reset (s : State) : exec .reset s = .next (resetBlock s) := rfl
@[simp] theorem exec_clk (valid : Bool) (cmd : CommandWord) (s : State) :
    exec (.clk valid cmd) s = .next (clockEdge valid cmd s) := rfl
@[simp] theorem exec_tick (s : State) : exec .tick s = .next (tickBlock s) := rfl

/-- A command as an event of its own does what it does on a clock edge. -/
theorem exec_ofCommand (cmd : Command) (s : State) :
    exec (Instr.ofCommand cmd) s = .next (applyCommand cmd s) := by
  cases cmd <;> rfl

/-- A command word: what its command does, or nothing for a reserved code. -/
theorem performInput_command (w : CommandWord) (s : State) :
    performInput (.command w) s = .next (applyCommandWord w s) := by
  simp only [performInput, decodeInput, applyCommandWord]
  cases h : decodeCommand w with
  | error e => rfl
  | ok cmd => exact exec_ofCommand cmd s

/-! The divider (R147, R148). -/

/-- The divider changes `tc` and perhaps `fc`, nothing else. -/
theorem stepDivider_eq (s : State) :
    stepDivider s = (s.setTc (divNext s.tc).1).setFc
      (if (divNext s.tc).2 then raiseFlag s.fc else s.fc) := by
  simp only [stepDivider]
  cases (divNext s.tc).2 <;> rfl

@[simp] theorem stepDivider_chA (s : State) : (stepDivider s).chA = s.chA := by simp [stepDivider_eq]
@[simp] theorem stepDivider_chB (s : State) : (stepDivider s).chB = s.chB := by simp [stepDivider_eq]
@[simp] theorem stepDivider_mode (s : State) : (stepDivider s).mode = s.mode := by simp [stepDivider_eq]
@[simp] theorem stepDivider_presc (s : State) : (stepDivider s).presc = s.presc := by
  simp [stepDivider_eq]
@[simp] theorem stepDivider_inputs (s : State) : (stepDivider s).inputs = s.inputs := by
  simp [stepDivider_eq]
@[simp] theorem stepDivider_rom (s : State) : (stepDivider s).rom = s.rom := by simp [stepDivider_eq]
@[simp] theorem stepDivider_tc (s : State) : (stepDivider s).tc = (divNext s.tc).1 := by
  simp [stepDivider_eq]
@[simp] theorem stepDivider_fc (s : State) :
    (stepDivider s).fc = if (divNext s.tc).2 then raiseFlag s.fc else s.fc := by
  simp [stepDivider_eq]

/-! The DDS path (R137, R146). -/

/-- In Off the outputs are written zero and nothing else changes. -/
theorem tickDatapath_off {s : State} (h : s.mode = .off) :
    tickDatapath s = { s with chA := { s.chA with out := 0 }, chB := { s.chB with out := 0 } } := by
  cases s
  subst h
  rfl

/-- Outside Off both lanes advance and their combiner outputs are written. -/
theorem tickDatapath_on {s : State} (h : s.mode ≠ .off) :
    tickDatapath s =
      { s with
        chA := { s.chA with acc := (laneNext s.rom .a s.chA).1, out := (laneNext s.rom .a s.chA).2 },
        chB := { s.chB with acc := (laneNext s.rom .b s.chB).1, out := (laneNext s.rom .b s.chB).2 } } := by
  obtain ⟨_, _, mode, _, _, _, _, _⟩ := s
  cases mode
  · exact absurd rfl h
  all_goals rfl

/-- The registers of one channel after the DDS path: one lane, from that channel's registers, the mode
and the ROM alone (R146). -/
theorem tickDatapath_chan (s : State) (c : Channel) :
    (tickDatapath s).chan c =
      if s.mode = .off then { s.chan c with out := 0 }
      else { s.chan c with acc := (laneNext s.rom c (s.chan c)).1, out := (laneNext s.rom c (s.chan c)).2 } := by
  by_cases h : s.mode = .off
  · rw [tickDatapath_off h, if_pos h]
    cases c <;> rfl
  · rw [tickDatapath_on h, if_neg h]
    cases c <;> rfl

/-- What the DDS path leaves alone, in every mode. -/
theorem tickDatapath_frame (s : State) :
    (tickDatapath s).mode = s.mode ∧ (tickDatapath s).tc = s.tc ∧ (tickDatapath s).fc = s.fc ∧
      (tickDatapath s).presc = s.presc ∧ (tickDatapath s).inputs = s.inputs ∧
      (tickDatapath s).rom = s.rom := by
  by_cases h : s.mode = .off
  · rw [tickDatapath_off h]
    exact ⟨rfl, rfl, rfl, rfl, rfl, rfl⟩
  · rw [tickDatapath_on h]
    exact ⟨rfl, rfl, rfl, rfl, rfl, rfl⟩

/-! The tick (R146). -/

@[simp] theorem tickBlock_mode (s : State) : (tickBlock s).mode = s.mode := by
  simp [tickBlock, tickDatapath_frame]
@[simp] theorem tickBlock_presc (s : State) : (tickBlock s).presc = s.presc := by
  simp [tickBlock, tickDatapath_frame]
@[simp] theorem tickBlock_inputs (s : State) : (tickBlock s).inputs = s.inputs := by
  simp [tickBlock, tickDatapath_frame]
@[simp] theorem tickBlock_rom (s : State) : (tickBlock s).rom = s.rom := by
  simp [tickBlock, tickDatapath_frame]
@[simp] theorem tickBlock_tc (s : State) : (tickBlock s).tc = (divNext s.tc).1 := by
  simp [tickBlock, tickDatapath_frame]
@[simp] theorem tickBlock_fc (s : State) :
    (tickBlock s).fc = if (divNext s.tc).2 then raiseFlag s.fc else s.fc := by
  simp [tickBlock, tickDatapath_frame]

/-- The registers of one channel after a tick. -/
theorem tickBlock_chan (s : State) (c : Channel) :
    (tickBlock s).chan c =
      if s.mode = .off then { s.chan c with out := 0 }
      else { s.chan c with acc := (laneNext s.rom c (s.chan c)).1, out := (laneNext s.rom c (s.chan c)).2 } := by
  rw [← tickDatapath_chan]
  cases c <;> simp [tickBlock]

/-! The clock edge (R145, R151). -/

/-- An edge that does not wrap the prescaler only counts it up. -/
theorem clockPrescaler_of_lt {s : State} (h : s.presc.val + 1 < Config.tickDiv) :
    clockPrescaler s = s.setPresc ⟨s.presc.val + 1, h⟩ := by
  simp only [clockPrescaler, h, dite_true]

/-- The edge at 509 returns the prescaler to 0 and performs the tick. -/
theorem clockPrescaler_of_last {s : State} (h : s.presc.val = 509) :
    clockPrescaler s = (tickBlock s).setPresc 0 := by
  have h' : ¬ s.presc.val + 1 < Config.tickDiv := by simp only [Config.tickDiv]; omega
  simp only [clockPrescaler, h', dite_false]
  by_cases hm : s.mode = .off
  · rw [tickBlock, tickBlock, tickDatapath_off hm, tickDatapath_off (by simpa using hm),
      stepDivider_eq, stepDivider_eq]
    rfl
  · rw [tickBlock, tickBlock, tickDatapath_on hm, tickDatapath_on (by simpa using hm),
      stepDivider_eq, stepDivider_eq]
    rfl

@[simp] theorem clockEdge_idle (cmd : CommandWord) (s : State) :
    clockEdge false cmd s = clockPrescaler s := rfl

@[simp] theorem clockEdge_valid (cmd : CommandWord) (s : State) :
    clockEdge true cmd s = applyCommandWord cmd (clockPrescaler s) := rfl

/-! What commands leave alone. -/

/-- No command writes an element the tick owns, the prescaler, the inputs or the ROM (R35). -/
theorem applyCommand_frame (cmd : Command) (s : State) :
    (∀ c, ((applyCommand cmd s).chan c).acc = (s.chan c).acc) ∧
      (∀ c, ((applyCommand cmd s).chan c).out = (s.chan c).out) ∧
      (applyCommand cmd s).tc = s.tc ∧ (applyCommand cmd s).presc = s.presc ∧
      (applyCommand cmd s).inputs = s.inputs ∧ (applyCommand cmd s).rom = s.rom := by
  cases cmd <;>
    refine ⟨fun c => ?_, fun c => ?_, ?_, ?_, ?_, ?_⟩ <;>
    simp only [applyCommand, noOperation, setTuningWord, setDepthShift, setBaseLevel, stepWave,
      stepMode, clearFlagCount, State.chan_setTw, State.chan_setDs, State.chan_setBl, State.chan_setWs,
      State.setMode_chan, State.setFc_chan, State.setTw_tc, State.setDs_tc, State.setBl_tc,
      State.setWs_tc, State.setMode_tc, State.setFc_tc, State.setTw_presc, State.setDs_presc,
      State.setBl_presc, State.setWs_presc, State.setMode_presc, State.setFc_presc,
      State.setTw_inputs, State.setDs_inputs, State.setBl_inputs, State.setWs_inputs,
      State.setMode_inputs, State.setFc_inputs, State.setTw_rom, State.setDs_rom, State.setBl_rom,
      State.setWs_rom, State.setMode_rom, State.setFc_rom] <;>
    (split <;> simp_all)

/-- A command word is one of the seven commands, or changes nothing. -/
theorem applyCommandWord_cases (w : CommandWord) (s : State) :
    (∃ cmd, decodeCommand w = .ok cmd ∧ applyCommandWord w s = applyCommand cmd s) ∨
      applyCommandWord w s = s := by
  simp only [applyCommandWord]
  cases h : decodeCommand w with
  | error e => exact .inr rfl
  | ok cmd => exact .inl ⟨cmd, rfl, rfl⟩

@[simp] theorem applyCommandWord_inputs (w : CommandWord) (s : State) :
    (applyCommandWord w s).inputs = s.inputs := by
  obtain ⟨cmd, -, h⟩ | h := applyCommandWord_cases w s
  · rw [h]; exact (applyCommand_frame cmd s).2.2.2.2.1
  · rw [h]

@[simp] theorem applyCommandWord_rom (w : CommandWord) (s : State) :
    (applyCommandWord w s).rom = s.rom := by
  obtain ⟨cmd, -, h⟩ | h := applyCommandWord_cases w s
  · rw [h]; exact (applyCommand_frame cmd s).2.2.2.2.2
  · rw [h]

@[simp] theorem clockPrescaler_inputs (s : State) : (clockPrescaler s).inputs = s.inputs := by
  simp only [clockPrescaler]
  split <;> simp

@[simp] theorem clockPrescaler_rom (s : State) : (clockPrescaler s).rom = s.rom := by
  simp only [clockPrescaler]
  split <;> simp

@[simp] theorem clockEdge_inputs (valid : Bool) (cmd : CommandWord) (s : State) :
    (clockEdge valid cmd s).inputs = s.inputs := by
  cases valid <;> simp

@[simp] theorem clockEdge_rom (valid : Bool) (cmd : CommandWord) (s : State) :
    (clockEdge valid cmd s).rom = s.rom := by
  cases valid <;> simp

@[simp] theorem resetBlock_inputs (s : State) : (resetBlock s).inputs = s.inputs := rfl
@[simp] theorem resetBlock_rom (s : State) : (resetBlock s).rom = s.rom := rfl

/-! The step. -/

/-- A step with no input left is an idle clock edge (assumption log 2). -/
theorem step_of_no_input {s : State} (h : s.inputs = []) : step s = exec (.clk false 0) s := by
  cases s
  subst h
  rfl

/-- A step with an input left performs it on the state without it. -/
theorem step_of_input {s : State} {i : Input} {rest : List Input} (h : s.inputs = i :: rest) :
    step s = performInput i (s.setInputs rest) := by
  simp [step, nextInput, takeInput, h]

/-! The memory. -/

/-- No part of an operation writes the ROM, so the canonical form stays (R62). -/
theorem Memory.wf_kept_by_tick (s : State) (h : s.rom.wf = true) : (tickBlock s).rom.wf = true := by
  simpa using h

theorem Memory.wf_kept_by_clock (valid : Bool) (cmd : CommandWord) (s : State) (h : s.rom.wf = true) :
    (clockEdge valid cmd s).rom.wf = true := by
  simpa using h

theorem Memory.wf_kept_by_command (w : CommandWord) (s : State) (h : s.rom.wf = true) :
    (applyCommandWord w s).rom.wf = true := by
  simpa using h

theorem Memory.wf_kept_by_reset (s : State) (h : s.rom.wf = true) : (resetBlock s).rom.wf = true := by
  simpa using h

theorem Memory.wf_reset : State.reset.rom.wf = true := rfl

end Sys2Proof.Machine
end

