-- ==== Sys2Proof/Laws/PerInstr.lean ====
section
/-! SUPPORT. Statements made per instruction: the word the encoder writes lies in its row of the opcode
table (match under mask). -/

namespace Sys2Proof.Laws.TableRow

/-- The `match` of an operation's row of the opcode table (R84, R87). -/
def rowMatch : Instr → Nat
  | .nop => 0x0000000000
  | .settw _ _ => 0x1000000000
  | .setds _ _ => 0x2000000000
  | .setbl _ _ => 0x3000000000
  | .wstep _ => 0x4000000000
  | .mstep => 0x5000000000
  | .crclr => 0x6000000000
  | .reset => 0x20000000000
  | .clk _ _ => 0x00000000000
  | .tick => 0x00000000000

/-- The encoding of `i`, under its row's mask, is its row's match; `TICK` alone has no word (R82, R87). -/
def Statement (i : Instr) : Prop :=
  match encode i with
  | .command w => w &&& 0xF000000000#40 = BitVec.ofNat 40 (rowMatch i)
  | .edge w => w &&& 0x20000000000#42 = BitVec.ofNat 42 (rowMatch i)
  | .tick => i = .tick

/-- The mask of format C leaves the operation code of a packed command. -/
theorem packCommand_and_mask (op : BitVec 4) (ch : BitVec 1) (data : Word) :
    packCommand op ch data &&& 0xF000000000#40 = op ++ 0#36 := by
  have hm : (0xF000000000#40) = 0xF#4 ++ (0#36) := by decide
  rw [hm, packCommand, BitVec.and_append]
  congr 1
  · exact BitVec.and_allOnes (x := op)
  · simp

/-- The mask of format EVT leaves the level of `rst`. -/
theorem packStep_and_mask (rst valid : Bool) (cmd : CommandWord) :
    packStep rst valid cmd &&& 0x20000000000#42 = BitVec.ofBool rst ++ 0#41 := by
  have hm : (0x20000000000#42) = 1#1 ++ (0#41) := by decide
  rw [hm, packStep, BitVec.and_append]
  congr 1
  · cases rst <;> decide
  · simp

theorem nop : Statement .nop := packCommand_and_mask _ _ _
theorem settw (c : Channel) (v : Word) : Statement (.settw c v) :=
  (packCommand_and_mask 0x1 (chBit c) v).trans
    (show (0x1#4 ++ 0#36) = 0x1000000000#40 by decide)
theorem setds (c : Channel) (v : Word) : Statement (.setds c v) :=
  (packCommand_and_mask 0x2 (chBit c) v).trans
    (show (0x2#4 ++ 0#36) = 0x2000000000#40 by decide)
theorem setbl (c : Channel) (v : Word) : Statement (.setbl c v) :=
  (packCommand_and_mask 0x3 (chBit c) v).trans
    (show (0x3#4 ++ 0#36) = 0x3000000000#40 by decide)
theorem wstep (c : Channel) : Statement (.wstep c) :=
  (packCommand_and_mask 0x4 (chBit c) 0).trans
    (show (0x4#4 ++ 0#36) = 0x4000000000#40 by decide)
theorem mstep : Statement .mstep := packCommand_and_mask _ _ _
theorem crclr : Statement .crclr := packCommand_and_mask _ _ _
theorem reset : Statement .reset := packStep_and_mask _ _ _
theorem clk (valid : Bool) (cmd : CommandWord) : Statement (.clk valid cmd) :=
  (packStep_and_mask false valid cmd).trans (show BitVec.ofBool false ++ 0#41 = 0#42 by decide)
theorem tick : Statement .tick := rfl

end Sys2Proof.Laws.TableRow
end

