-- ==== Sys2Proof/Laws/Run.lean ====
section
/-! SUPPORT. How sequences of operations unfold, and that no operation looks at the inputs still to come,
nor any but a clock edge at the prescaler. -/

namespace Sys2Proof.Machine

/-- A run of one step more, after a step that has a next state. -/
theorem run_succ_of_next (n : Nat) {s t : State} (h : step s = .next t) :
    Host.Core.run Sys2Proof.core (n + 1) s = Host.Core.run Sys2Proof.core n t := by
  have h' : Sys2Proof.core.step s = .next t := h
  simp only [Host.Core.run, h']

theorem execAll_cons_of_next (l : List Instr) {i : Instr} {s t : State} (h : exec i s = .next t) :
    execAll (i :: l) s = execAll l t := by
  simp only [execAll, h]

theorem performAll_cons_of_next (l : List Input) {i : Input} {s t : State}
    (h : performInput i s = .next t) : performAll (i :: l) s = performAll l t := by
  simp only [performAll, h]

/-- A sequence of operations after one that completed. -/
theorem execAll_append_of_next {l m : List Instr} {s t : State} (h : execAll l s = .next t) :
    execAll (l ++ m) s = execAll m t := by
  induction l generalizing s with
  | nil =>
    injection h with h
    rw [← h, List.nil_append]
  | cons i l ih =>
    simp only [execAll, List.cons_append] at h ⊢
    cases hi : exec i s with
    | next u =>
      rw [hi] at h
      exact ih h
    | fault r => simp [hi] at h
    | refused r => simp [hi] at h

/-! The inputs still to come. -/

theorem tickBlock_setInputs (s : State) (l : List Input) :
    tickBlock (s.setInputs l) = (tickBlock s).setInputs l := by
  by_cases hm : s.mode = .off
  · rw [tickBlock, tickBlock, tickDatapath_off hm, tickDatapath_off (by simpa using hm),
      stepDivider_eq, stepDivider_eq]
    rfl
  · rw [tickBlock, tickBlock, tickDatapath_on hm, tickDatapath_on (by simpa using hm),
      stepDivider_eq, stepDivider_eq]
    rfl

theorem clockPrescaler_setInputs (s : State) (l : List Input) :
    clockPrescaler (s.setInputs l) = (clockPrescaler s).setInputs l := by
  by_cases h : s.presc.val = 509
  · rw [clockPrescaler_of_last h, clockPrescaler_of_last (s := s.setInputs l) h, tickBlock_setInputs]
    rfl
  · have := s.presc.le_last
    have h' : s.presc.val + 1 < Config.tickDiv := by
      simp only [Config.tickDiv]
      omega
    rw [clockPrescaler_of_lt h', clockPrescaler_of_lt (s := s.setInputs l) h']
    rfl

theorem applyCommand_setInputs (cmd : Command) (s : State) (l : List Input) :
    applyCommand cmd (s.setInputs l) = (applyCommand cmd s).setInputs l := by
  cases cmd with
  | nop => rfl
  | settw c v => cases c <;> rfl
  | setds c v => cases c <;> rfl
  | setbl c v => cases c <;> rfl
  | wstep c => cases c <;> rfl
  | mstep => rfl
  | crclr => rfl

theorem applyCommandWord_setInputs (w : CommandWord) (s : State) (l : List Input) :
    applyCommandWord w (s.setInputs l) = (applyCommandWord w s).setInputs l := by
  simp only [applyCommandWord]
  split
  · exact applyCommand_setInputs _ _ _
  · rfl

theorem clockEdge_setInputs (valid : Bool) (w : CommandWord) (s : State) (l : List Input) :
    clockEdge valid w (s.setInputs l) = (clockEdge valid w s).setInputs l := by
  cases valid
  · exact clockPrescaler_setInputs s l
  · rw [clockEdge_valid, clockEdge_valid, clockPrescaler_setInputs, applyCommandWord_setInputs]

/-! The prescaler. -/

theorem tickBlock_setPresc (s : State) (p : Prescaler) :
    tickBlock (s.setPresc p) = (tickBlock s).setPresc p := by
  by_cases hm : s.mode = .off
  · rw [tickBlock, tickBlock, tickDatapath_off hm, tickDatapath_off (by simpa using hm),
      stepDivider_eq, stepDivider_eq]
    rfl
  · rw [tickBlock, tickBlock, tickDatapath_on hm, tickDatapath_on (by simpa using hm),
      stepDivider_eq, stepDivider_eq]
    rfl

theorem applyCommand_setPresc (cmd : Command) (s : State) (p : Prescaler) :
    applyCommand cmd (s.setPresc p) = (applyCommand cmd s).setPresc p := by
  cases cmd with
  | nop => rfl
  | settw c v => cases c <;> rfl
  | setds c v => cases c <;> rfl
  | setbl c v => cases c <;> rfl
  | wstep c => cases c <;> rfl
  | mstep => rfl
  | crclr => rfl

theorem applyCommandWord_setPresc (w : CommandWord) (s : State) (p : Prescaler) :
    applyCommandWord w (s.setPresc p) = (applyCommandWord w s).setPresc p := by
  simp only [applyCommandWord]
  split
  · exact applyCommand_setPresc _ _ _
  · rfl

/-- The mode steps into Off from Tune only (R138). -/
theorem nextMode_eq_off_iff (m : Mode) : nextMode m = .off ↔ m = .tune := by
  cases m <;> decide

end Sys2Proof.Machine
end

