-- ==== Sys2Proof/Tests/Slice0.lean ====
section
/-! SUPPORT. Tests. The words and the expected values are from the tables of `spec/`, mostly
`95_test_vectors.md`, each test naming its vector. The section on hypotheses shows, for each statement of
the provers' file that has hypotheses, a concrete state and operands that meet them all. -/

namespace Sys2Proof.Tests

open Sys2Proof Sys2Proof.Machine

/-! ## Helpers -/

/-- A state with the given channels, mode, divider, prescaler and named ROM bytes; no input pending. -/
def blockOf (a b : ChannelRegs) (m : Mode) (tc : TickCount) (fc : Byte) (p : Prescaler) (rom : Memory) :
    State :=
  { chA := a, chB := b, mode := m, tc := tc, fc := fc, presc := p, inputs := [], rom := rom }

/-- A silent channel with the given accumulator and tuning word. -/
def lane (acc tw : Word) : ChannelRegs := { acc := acc, tw := tw, ds := 0, bl := 0, ws := 0, out := 0 }

/-- The state in which the vectors V-ENC start: zero but `tw = (5, 6)`, `ds = (4, 4)`, `fc = 30`. -/
def encStart : State :=
  blockOf { lane 0 5 with ds := 4 } { lane 0 6 with ds := 4 } .off 0 30 0 []

/-- What a view of the state shows after one operation. -/
def seen {α : Type} (i : Instr) (s : State) (f : State → α) : Option α :=
  match exec i s with
  | .next t => some (f t)
  | .fault _ => none
  | .refused _ => none

/-! ## Well-formedness -/

theorem test_wellformed_command_on_pins : (Instr.clk true 0x1100002001).wellFormed = true := by decide
theorem test_wellformed_idle_pins : (Instr.clk false 0xFFFFFFFFFF).wellFormed = true := by decide
theorem test_illformed_reserved_code : (Instr.clk true 0x7000000000).wellFormed = false := by decide
theorem test_illformed_last_reserved_code : (Instr.clk true 0xF000000000).wellFormed = false := by decide
theorem test_illformed_rsv_bit : (Instr.clk true 0x1200002001).wellFormed = false := by decide
theorem test_illformed_ignored_channel : (Instr.clk true 0x5100000000).wellFormed = false := by decide
theorem test_illformed_ignored_data_wstep : (Instr.clk true 0x4100000001).wellFormed = false := by decide
theorem test_illformed_ignored_data_crclr : (Instr.clk true 0x6080000000).wellFormed = false := by decide

/-! ## Decoding: words written out from R81, R82, R84 and R87 -/

/-- R84: OP 0, and V-ENC-7. -/
theorem test_decode_nop : decodeTableWord 40 0x0000000000 = some .nop ∧
    decodeTableWord 40 0x0FFFFFFFFF = some .nop := by decide
/-- V-NCO-21, V-ENC-1 and V-ENC-2. -/
theorem test_decode_settw : decodeTableWord 40 0x1000002001 = some (.settw .a 8193) ∧
    decodeTableWord 40 0x1F00002001 = some (.settw .b 8193) ∧
    decodeTableWord 40 0x1E00002001 = some (.settw .a 8193) := by decide
/-- V-CMB-33, V-ENC-9. -/
theorem test_decode_setds : decodeTableWord 40 0x2000000008 = some (.setds .a 8) ∧
    decodeTableWord 40 0x23FFFFFFFF = some (.setds .b 0xFFFFFFFF) := by decide
/-- V-CMB-47, V-CMB-42. -/
theorem test_decode_setbl : decodeTableWord 40 0x30000000C8 = some (.setbl .a 200) ∧
    decodeTableWord 40 0x3100000032 = some (.setbl .b 50) := by decide
/-- V-WT-10, V-ENC-6. -/
theorem test_decode_wstep : decodeTableWord 40 0x4000000000 = some (.wstep .a) ∧
    decodeTableWord 40 0x41DEADBEEF = some (.wstep .b) := by decide
/-- V-MODE-1, V-ENC-5. -/
theorem test_decode_mstep : decodeTableWord 40 0x5000000000 = some .mstep ∧
    decodeTableWord 40 0x5123456789 = some .mstep := by decide
/-- V-TS-16, V-ENC-8. -/
theorem test_decode_crclr : decodeTableWord 40 0x6000000000 = some .crclr ∧
    decodeTableWord 40 0x6EFFFFFFFF = some .crclr := by decide
/-- V-ENC-3, V-ENC-4 and the ends of V-ENC-10. -/
theorem test_decode_reserved : decodeTableWord 40 0x7000000000 = none ∧
    decodeTableWord 40 0xF1FFFFFFFF = none ∧ decodeTableWord 40 0x8000000000 = none ∧
    decodeTableWord 40 0xEFFFFFFFFF = none ∧
    decodeCommand 0x9000000000 = .error (.reservedOp 9) := by decide
/-- R87: `1 x xxxxxxxxxx` is RESET. -/
theorem test_decode_reset : decodeTableWord 48 0x20000000000 = some .reset ∧
    decodeTableWord 42 0x3FFFFFFFFFF = some .reset := by decide
/-- R87: `0 0 xxxxxxxxxx` is an idle CLK, `0 1 5000000000` a CLK that performs MSTEP. -/
theorem test_decode_clk : decodeTableWord 48 0x00000000000 = some (.clk false 0) ∧
    decodeTableWord 42 0x15000000000 = some (.clk true 0x5000000000) := by decide
/-- R87, R154: the tick is an event of its own, which no word selects. -/
theorem test_decode_tick : decodeInput .tick = .ok .tick := by decide

/-- The words of the programs P1 to P6, from the operations. -/
theorem test_encode_words : encodeCommand (.settw .b 0x01000000) = 0x1101000000 ∧
    encodeCommand (.setds .b 0xFFFFFFFF) = 0x21FFFFFFFF ∧ encodeCommand (.setbl .a 100) = 0x3000000064 ∧
    encodeCommand (.wstep .b) = 0x4100000000 ∧ encodeCommand .mstep = 0x5000000000 ∧
    encodeCommand .crclr = 0x6000000000 ∧ encodeCommand .nop = 0 := by decide

/-! ## Stages -/

/-- V-NCO-2, V-NCO-3, V-NCO-5, V-NCO-6, V-NCO-7. -/
theorem test_nco : ncoNext 0xFFFFFFFF 1 = 0 ∧ ncoNext 0xFFFFE000 0x2001 = 1 ∧
    ncoNext 0x12345678 0x9ABCDEF0 = 0xACF13568 ∧ ncoNext 0xFFFFFFFF 0xFFFFFFFF = 0xFFFFFFFE ∧
    phaseIndex (ncoNext 0x12345678 0x9ABCDEF0) = 172 ∧ phaseIndex (ncoNext 0x00FFFFFF 1) = 1 := by decide
/-- V-CMB-1, V-CMB-2. -/
theorem test_depth_scale : depthScale 255 0 = 255 ∧ depthScale 255 7 = 1 ∧ depthScale 255 8 = 0 ∧
    depthScale 200 4 = 12 := by decide
/-- V-CMB-6 to V-CMB-9 and V-CMB-13, V-CMB-14, V-CMB-17, V-CMB-19. -/
theorem test_combine : combine .sub 100 8 = 92 ∧ combine .sub 100 100 = 0 ∧ combine .sub 100 101 = 0 ∧
    combine .sub 0 255 = 0 ∧ combine .add 10 245 = 255 ∧ combine .add 10 246 = 255 ∧
    combine .add 50 255 = 255 ∧ combine .add 255 255 = 255 := by decide
/-- V-CMB-21, V-CMB-22. -/
theorem test_comb_out : combOut .a { lane 0 0 with ds := 2, bl := 100 } 200 = 50 ∧
    combOut .b { lane 0 0 with ds := 2, bl := 100 } 200 = 150 ∧
    combOut .a { lane 0 0 with ds := 0, bl := 100 } 200 = 0 ∧
    combOut .b { lane 0 0 with ds := 0, bl := 100 } 200 = 255 := by decide
/-- V-GATE-1, V-GATE-2. -/
theorem test_gate : gate .off 200 37 = (0, 0) ∧ gate .fx 200 37 = (200, 37) := by decide
/-- V-WT-4, V-WT-8, and the first address that does not exist. -/
theorem test_rom : flatAddress 1 200 = 456 ∧ flatAddress 8 255 = 2303 ∧
    romRead [(456, 200), (2303, 224)] 8 255 = 224 ∧ memRead [(456, 200)] 456 = some 200 ∧
    memRead [(2303, 224)] 2304 = none := by decide
theorem test_rom_form : Memory.wf [(456, 200), (2303, 224)] = true ∧
    Memory.wf [(2303, 224), (456, 200)] = false ∧ Memory.wf [(456, 1), (456, 2)] = false ∧
    Memory.wf [(2304, 0)] = false := by decide

/-! ## One step of each operation -/

/-- V-TS-21, from the start state of V-ENC. -/
theorem test_nop : seen .nop encStart id = some encStart := by decide
/-- V-NCO-21. -/
theorem test_settw_a : seen (.settw .a 8193) encStart (fun t => (t.chA.tw, t.chB.tw)) = some (0x2001, 6) := by
  decide
/-- V-NCO-24, on a channel with a phase. -/
theorem test_settw_b_all_bits :
    seen (.settw .b 0xFFFFFFFF) (blockOf (lane 0 5) (lane 0x12345678 6) .fx 0 0 0 [])
      (fun t => (t.chB.tw, t.chB.acc, t.chA.tw)) = some (0xFFFFFFFF, 0x12345678, 5) := by decide
/-- V-CMB-34, V-CMB-36, V-CMB-37. -/
theorem test_setds_clamps : seen (.setds .a 9) encStart (fun t => t.chA.ds) = some 8 ∧
    seen (.setds .a 0x7FFFFFFF) encStart (fun t => t.chA.ds) = some 8 ∧
    seen (.setds .a 0x80000000) encStart (fun t => t.chA.ds) = some 0 := by decide
/-- V-CMB-40. -/
theorem test_setds_b_negative :
    seen (.setds .b 0xFFFFFFFF) encStart (fun t => (t.chA.ds, t.chB.ds)) = some (4, 0) := by decide
/-- V-CMB-43, V-CMB-44, V-CMB-45, V-CMB-46. -/
theorem test_setbl_saturates : seen (.setbl .b 255) encStart (fun t => t.chB.bl) = some 255 ∧
    seen (.setbl .b 256) encStart (fun t => t.chB.bl) = some 255 ∧
    seen (.setbl .b 1000) encStart (fun t => t.chB.bl) = some 255 ∧
    seen (.setbl .b 0xFFFFFFFF) encStart (fun t => t.chB.bl) = some 255 := by decide
/-- V-CMB-47. -/
theorem test_setbl_a : seen (.setbl .a 200) encStart (fun t => (t.chA.bl, t.chB.bl)) = some (200, 0) := by
  decide
/-- V-WT-10. -/
theorem test_wstep_a : seen (.wstep .a) State.reset (fun t => (t.chA.ws, t.chB.ws)) = some (1, 0) := by decide
/-- V-WT-12: 8 wraps to 0. -/
theorem test_wstep_wraps :
    seen (.wstep .b) (blockOf (lane 0 0) { lane 0 0 with ws := 8 } .off 0 0 0 []) (fun t => t.chB.ws)
      = some 0 := by decide
/-- V-MODE-3, and channel A's base untouched as in V-MODE-5. -/
theorem test_mstep_base :
    seen .mstep (blockOf { lane 0 0 with bl := 77 } { lane 0 0 with bl := 200 } .fx 0 0 0 [])
      (fun t => (t.mode, t.chA.bl, t.chB.bl)) = some (.drone, 77, 10) := by decide
/-- V-MODE-2 and V-GATE-6: the mode wraps, the outputs stay. -/
theorem test_mstep_wraps :
    seen .mstep (blockOf { lane 0 0 with out := 63 } { lane 0 0 with out := 242 } .tune 0 0 0 [])
      (fun t => (t.mode, t.chA.out, t.chB.out)) = some (.off, 63, 242) := by decide
/-- V-TS-16. -/
theorem test_crclr : seen .crclr (blockOf (lane 0 0) (lane 0 0) .fx 7 26 0 [])
    (fun t => (t.tc, t.fc, crReadyPin t)) = some (7, 0, false) := by decide
/-- R37, R200: from a state with nothing at its reset value. -/
theorem test_reset :
    seen .reset (blockOf ⟨1, 2, 3, 4, 5, 6⟩ ⟨7, 8, 7, 10, 8, 12⟩ .tune 124 255 509 [(3, 4)]) id
      = some { State.reset with rom := [(3, 4)] } := by decide
/-- V-WT's text after V-WT-13, first tick: ramp at index 64, base 50. -/
theorem test_tick_channel_b :
    seen .tick (blockOf (lane 0 0) ⟨0x40000000, 0, 0, 50, 1, 0⟩ .fx 124 25 3 [(320, 64), (576, 191)])
      (fun t => (t.chB.out, t.chB.acc, t.tc, t.fc, crReadyPin t, t.presc))
      = some (114, 0x40000000, 0, 26, true, 3) := by decide
/-- V-GATE-5: in Off the outputs are zero, the phase holds, the divider runs. -/
theorem test_tick_off :
    seen .tick (blockOf ⟨0x12345678, 0xFFFFFFFF, 0, 255, 8, 77⟩ ⟨0xFFFFFFFF, 0x80000000, 0, 255, 7, 88⟩
        .off 10 3 0 []) id
      = some (blockOf ⟨0x12345678, 0xFFFFFFFF, 0, 255, 8, 0⟩ ⟨0xFFFFFFFF, 0x80000000, 0, 255, 7, 0⟩
        .off 11 3 0 []) := by decide
/-- V-TS-7: the flag count saturates; V-TS-2: no flag before the 125th tick. -/
theorem test_divider : (divNext 124, divNext 123) = ((0, true), (124, false)) ∧ raiseFlag 255 = 255 ∧
    raiseFlag 254 = 255 ∧ controlDue 25 = false ∧ controlDue 26 = true := by decide
/-- V-TS-24: the edge to 509 performs no tick, and `tick_o` is then 1 while `rst` is 0. -/
theorem test_clk_counts :
    seen (.clk false 0) (blockOf (lane 0 0) (lane 5 7) .fx 0 0 508 [])
      (fun t => (t.presc, t.chB.acc, tickPin false t, tickPin true t)) = some (509, 5, true, false) := by decide
/-- P5, edge 510: the tick uses the old tuning word, then the command is performed. -/
theorem test_clk_tick_then_command :
    seen (.clk true 0x1140000000) (blockOf (lane 0 0) ⟨0, 0x80000000, 0, 50, 1, 0⟩ .fx 0 0 509 [(384, 128)])
      (fun t => (t.presc, t.chB.acc, t.chB.out, t.tc, t.chB.tw))
      = some (0, 0x80000000, 178, 1, 0x40000000) := by decide

/-! ## The host's contract, traces and rates -/

/-- V-HOST-1, V-HOST-3, V-HOST-5, V-HOST-6. -/
theorem test_tw_map : exactTwMap 0 = 8193 ∧ exactTwMap 34 = 8194 ∧ exactTwMap 200 = 8244 ∧
    exactTwMap 256 = 8351 := by decide
/-- V-HOST-15 to V-HOST-17, V-HOST-22, V-HOST-23. -/
theorem test_ds_map : dsMap 0 = 8 ∧ dsMap 127 = 8 ∧ dsMap 128 = 7 ∧ dsMap 896 = 1 ∧ dsMap 1023 = 1 := by decide
/-- Lines of the programs P2 and P6. -/
theorem test_trace_lines :
    readLine "SETTW A, 0x10000000".toList = some [.command 0x1010000000] ∧
    readLine "SETDS B, -1".toList = some [.command 0x21FFFFFFFF] ∧
    readLine "MSTEP *2".toList = some [.command 0x5000000000, .command 0x5000000000] ∧
    readLine "0x9000000000".toList = some [.command 0x9000000000] := by decide
/-- R88, R89: a comment, a channel that does not exist, a wave select out of range. -/
theorem test_trace_refuses : readLine "TICK ; one tick".toList = some [.tick] ∧
    readLine "WSTEP C".toList = none ∧ readLine "WSEL A, 9".toList = none := by decide
/-- The model's choice of log 15: the numbers of a pseudo-operation, in decimal or with `0x`. -/
theorem test_trace_pseudo_numbers :
    readLine "WSEL A, 0x2".toList = some [.command 0x4000000000, .command 0x4000000000] ∧
    readReading "0x3FF".toList = some 1023 ∧ readReading "-7".toList = some (-7) ∧
    readReading "-0x7".toList = none := by decide
/-- Program P4, steps 4 to 9: one control cycle. -/
theorem test_control_cycle :
    readLine "CTRL_CYCLE(512, 700, false, 0, 0, false, true)".toList =
      (some [.command 0x6000000000, .command (encodeCommand (.settw .a (exactTwMap 512))),
        .command 0x2000000003, .command 0x1100002001, .command 0x2100000008, .command 0x5000000000]) := by
  decide +kernel
/-- R216, R217. -/
theorem test_rates : flagClocks = 63750 ∧ controlTicks = 3250 := by decide

/-! ## Hypotheses that something meets -/

theorem test_hyps_EncodeOfDecodeIsCanonical :
    decodeCommand 0x1F00002001 = .ok (.settw .b 8193) ∧ decodeCommand 0x6EFFFFFFFF = .ok .crclr := by decide
theorem test_hyps_NopChangesNothing : (0x0FFFFFFFFF : CommandWord).toNat < 2 ^ 36 ∧
    ¬ (0x1000000000 : CommandWord).toNat < 2 ^ 36 := by decide
theorem test_hyps_ReservedCodeChangesNothing : 7 * 2 ^ 36 ≤ (0x7000000000 : CommandWord).toNat ∧
    7 * 2 ^ 36 ≤ (0xFFFFFFFFFF : CommandWord).toNat ∧ ¬ 7 * 2 ^ 36 ≤ (0x6FFFFFFFFF : CommandWord).toNat := by
  decide
theorem test_hyps_WstepAdvancesWaveSelectOnly :
    ((0x4000000000 : CommandWord).toNat / 2 ^ 36 = 4 ∧
      (0x4000000000 : CommandWord).toNat / 2 ^ 32 % 2 = chNum .a) ∧
    ((0x4FFFFFFFFF : CommandWord).toNat / 2 ^ 36 = 4 ∧
      (0x4FFFFFFFFF : CommandWord).toNat / 2 ^ 32 % 2 = chNum .b) := by decide
theorem test_hyps_MstepAdvancesModeAndBase : (0x5123456789 : CommandWord).toNat / 2 ^ 36 = 5 ∧
    (0x5FFFFFFFFF : CommandWord).toNat / 2 ^ 36 = 5 := by decide
theorem test_hyps_CrclrClearsFlagCountOnly : (0x6000000000 : CommandWord).toNat / 2 ^ 36 = 6 ∧
    (0x6FFFFFFFFF : CommandWord).toNat / 2 ^ 36 = 6 := by decide
theorem test_hyps_ResetZeroesEveryElement : 2 ^ 41 ≤ (0x20000000000 : StepWord).toNat ∧
    2 ^ 41 ≤ (0x3FFFFFFFFFF : StepWord).toNat ∧ ¬ 2 ^ 41 ≤ (0x1FFFFFFFFFF : StepWord).toNat := by decide

/-- A state one edge before a tick, in Fx, with both lanes running. -/
def lastEdge : State := blockOf (lane 0 3) (lane 0xFFFFFFFF 2) .fx 124 255 509 []

theorem test_hyps_ClockEdgeTicksThenCommands :
    lastEdge.presc.val = 509 ∧ (lastEdge.setPresc 508).presc.val ≠ 509 ∧
      2 ^ 41 ≤ (0x35000000000 : StepWord).toNat := by decide
theorem test_hyps_TickEdgeUsesOldTuningWord : lastEdge.presc.val = 509 ∧ lastEdge.mode ≠ .off := by decide
theorem test_hyps_ClearOnTickEdgeWins : lastEdge.presc.val = 509 := by decide
theorem test_hyps_TickWholeEffect :
    (lastEdge.mode ≠ .off ∧ lastEdge.tc.val = 124) ∧ (State.reset.mode = .off ∧ State.reset.tc.val ≠ 124) ∧
      (lastEdge.setTc 123).tc.val ≠ 124 := by decide
theorem test_hyps_TickLanesAreIndependent :
    ∃ s s' : State, s.mode = s'.mode ∧ s.rom = s'.rom ∧ s.chan .a = s'.chan .a ∧ s ≠ s' :=
  ⟨lastEdge, (lastEdge.setTw .b 77).setFc 0, by decide⟩
theorem test_hyps_OutputsLagTheMode :
    (blockOf { lane 0 0 with out := 63 } (lane 0 0) .tune 0 0 0 []).mode = .tune := by decide
theorem test_hyps_FlatAddressesAreTheEntries : (2303 : Nat) ≤ 2303 ∧ (2304 : Nat) ≤ 2304 ∧
    memRead [(2303, 7)] 2303 = some 7 ∧ memRead [(2303, 7)] 2304 = none := by decide
theorem test_hyps_StepRunsTheDecodedOperation :
    ∃ s : State, s.inputs = [.command 0x5123456789, .tick] ∧
      decodeInput (.command 0x5123456789) = .ok .mstep :=
  ⟨lastEdge.setInputs [.command 0x5123456789, .tick], by decide⟩
theorem test_hyps_StepRunsTheDecodedOperation_reserved :
    ∃ s : State, s.inputs = [.command 0xF000000000] ∧
      decodeInput (.command 0xF000000000) = .error (.reservedOp 15) :=
  ⟨lastEdge.setInputs [.command 0xF000000000], by decide⟩
theorem test_hyps_PlacedWordIsRunNext : decodeTableWord 40 0x1100002001 = some (.settw .b 8193) ∧
    decodeTableWord 48 0x20000000000 = some .reset := by decide
theorem test_hyps_FreeRunWithoutInputs : lastEdge.inputs = [] := by decide
theorem test_hyps_RunPerformsInputsInOrder :
    (lastEdge.setInputs [.tick, .command 0x6000000000, idleEdge]).inputs =
      [.tick, .command 0x6000000000] ++ [idleEdge] := by decide
theorem test_hyps_DepthShiftIsMonotone : (8 : DepthShift).val = (7 : DepthShift).val + 1 ∧
    (1 : DepthShift).val = (0 : DepthShift).val + 1 := by decide
theorem test_hyps_AccumulatorClosedForm :
    ∀ i ∈ [Instr.tick, .settw .b 5, .mstep, .clk true 0x6000000000],
      i ≠ .reset ∧ ∀ v, ¬ performs i (.settw .a v) := by
  have h : decodeCommand 0x6000000000#40 = .ok .crclr := by decide
  simp [performs, Instr.ofCommand, h]
theorem test_hyps_PhasePeriod : lastEdge.mode ≠ .off ∧ (lastEdge.chan .a).tw.toNat = 3 := by decide
theorem test_hyps_FullCycleIndex :
    ∃ s : State, s.mode ≠ .off ∧ (s.chan .b).acc = 0 ∧ (s.chan .b).tw = BitVec.ofNat 32 (2 ^ 24) :=
  ⟨blockOf (lane 0 0) (lane 0 0x01000000) .drone 0 0 0 [], by decide⟩
theorem test_hyps_OffHoldsThePhase :
    (blockOf (lane 0x12345678 5) (lane 0 0) .off 10 3 0 []).mode = .off := by decide
theorem test_hyps_FullDepthShiftGivesTheBase :
    ∃ s : State, s.mode ≠ .off ∧ (s.chan .a).ds.val = 8 ∧ (s.chan .b).ds.val = 8 ∧ s.chB.bl = 10 :=
  ⟨blockOf ⟨0, 3, 8, 255, 1, 0⟩ ⟨0, 8193, 8, 10, 0, 0⟩ .drone 0 0 0 [], by decide⟩
theorem test_hyps_ControlReadyFromTick3250 : State.reset.tc.val = 0 ∧ State.reset.fc = 0 := by decide

/-- Each clause of `EveryElementHasItsWriters`: an operation that changes the element. -/
theorem test_hyps_EveryElementHasItsWriters :
    seen .tick lastEdge (fun t => (t.chB.acc ≠ lastEdge.chB.acc ∧ t.tc ≠ lastEdge.tc : Bool)) = some true ∧
    seen .tick encStart (fun t => (t.tc ≠ encStart.tc : Bool)) = some true ∧
    seen (.settw .a 9) encStart (fun t => (t.chA.tw ≠ encStart.chA.tw : Bool)) = some true ∧
    seen (.clk true 0x2000000007) encStart (fun t => (t.chA.ds ≠ encStart.chA.ds : Bool)) = some true ∧
    seen (.setbl .a 9) encStart (fun t => (t.chA.bl ≠ encStart.chA.bl : Bool)) = some true ∧
    seen .mstep encStart (fun t => (t.chB.bl ≠ encStart.chB.bl ∧ t.mode ≠ encStart.mode : Bool)) = some true ∧
    seen (.wstep .b) encStart (fun t => (t.chB.ws ≠ encStart.chB.ws : Bool)) = some true ∧
    seen .crclr encStart (fun t => (t.fc ≠ encStart.fc : Bool)) = some true ∧
    seen (.clk false 0) encStart (fun t => (t.presc ≠ encStart.presc : Bool)) = some true := by decide
theorem test_hyps_EveryElementHasItsWriters_output :
    seen .tick (blockOf { lane 0 0 with out := 77 } (lane 0 0) .off 0 0 0 []) (fun t => t.chA.out) = some 0 := by
  decide

theorem test_hyps_ReachableStatesAreLegal :
    ∃ s r : State, exec .reset s = .next r ∧ tickedAfter false [.tick] r = true ∧ r.mode = .off :=
  ⟨lastEdge, resetBlock lastEdge, rfl, by decide⟩
theorem test_hyps_SilenceInOffIsKept :
    ∃ s t : State, s.mode = .off ∧ s.silent ∧ exec (.wstep .a) s = .next t ∧
      tickedSinceOff true (.wstep .a) s = true ∧ t.mode = .off :=
  ⟨encStart, encStart.setWs .a 1, rfl, ⟨rfl, rfl⟩, rfl, rfl, rfl⟩
theorem test_hyps_ModeBaseRelationIsKept :
    ∃ s t : State, s.modeBaseKept ∧ s.inputs ≠ [] ∧ step s = .next t :=
  ⟨(blockOf (lane 0 0) { lane 0 0 with bl := 10 } .drone 0 0 0 []).setInputs [.command 0x5000000000],
    _, ⟨by decide, by decide⟩, by decide, rfl⟩
theorem test_hyps_MemoryFormIsKept :
    ∃ s t : State, s.rom.wf = true ∧ s.rom ≠ [] ∧ step s = .next t :=
  ⟨blockOf (lane 0 0) (lane 0 0) .off 0 0 0 [(3, 1), (2303, 2)], _, by decide, by decide, rfl⟩
theorem test_hyps_DepthMapOfTheHost : (0 : Nat) ≤ 1023 ∧ (1023 : Nat) ≤ 1023 ∧ dsMap 1023 = 1 := by decide
/-- Readings at the ends of the clause on the block's clamp: 1152 sends -1, the last sends `-2^31`. -/
theorem test_hyps_DepthMapOfTheHost_clamp : (1152 : Nat) / 128 ≤ 2 ^ 31 + 8 ∧
    (274877908095 : Nat) / 128 ≤ 2 ^ 31 + 8 ∧ ¬ (274877908096 : Nat) / 128 ≤ 2 ^ 31 + 8 ∧
    seen (.setds .a (BitVec.ofInt 32 (8 - (1152 / 128 : Nat)))) encStart (fun t => t.chA.ds) = some 0 := by
  decide
theorem test_hyps_TuningMapOfTheHost : (0 : Nat) ≤ 1023 ∧ (1023 : Nat) ≤ 1023 ∧ exactTwMap 100 = 8199 := by
  decide
/-- V-HOST-12, the largest value. -/
theorem test_tw_map_last : exactTwMap 1023 = 628031428 := by decide +kernel
theorem test_hyps_ControlCycleEffect :
    ∃ r : RawControl, r.modeEdge = false ∧ clampReading r.readA.depthRaw = 0 ∧
      clampReading r.readB.depthRaw = 1023 :=
  ⟨⟨⟨512, -5, true⟩, ⟨0, 4000, false⟩, false⟩, by decide⟩
theorem test_hyps_ControlCycleEffect_mode_edge :
    ∃ r : RawControl, r.modeEdge = true ∧ r.readB.waveEdge = true :=
  ⟨⟨⟨512, 700, false⟩, ⟨0, 0, true⟩, true⟩, by decide⟩
theorem test_hyps_PseudoOperationsReachTheirTarget :
    (State.reset.chan .a).ws.val = 0 ∧ State.reset.mode = .off ∧ (wsel .a 8).length = 8 ∧
      (modeTo .tune).length = 3 := by decide

end Sys2Proof.Tests
end

/-! PROOFS. The state of the block (`10_state.md`): who writes each element, what the tick and the host own,
the reset values, the pins, the silence of R36 (h) and what a step runs.

The common ground is `exec_split`: every operation but `RESET` is at most one tick, then a write of the
prescaler, then at most one command. An element's writers are found by looking at these three alone. -/

namespace Sys2Proof.Machine

section Totality

/-- Every operation answers a next state (R180). -/
theorem exec_total (i : Instr) (s : State) : ∃ t, exec i s = .next t := by
  cases i <;> exact ⟨_, rfl⟩

/-- An operation is `RESET`, the tick, a clock edge, or one of the seven commands (R4). -/
theorem instr_kinds (i : Instr) :
    i = .reset ∨ i = .tick ∨ (∃ valid w, i = .clk valid w) ∨ ∃ cmd, i = Instr.ofCommand cmd := by
  cases i with
  | reset => exact .inl rfl
  | tick => exact .inr (.inl rfl)
  | clk valid w => exact .inr (.inr (.inl ⟨valid, w, rfl⟩))
  | nop => exact .inr (.inr (.inr ⟨.nop, rfl⟩))
  | settw c v => exact .inr (.inr (.inr ⟨.settw c v, rfl⟩))
  | setds c v => exact .inr (.inr (.inr ⟨.setds c v, rfl⟩))
  | setbl c v => exact .inr (.inr (.inr ⟨.setbl c v, rfl⟩))
  | wstep c => exact .inr (.inr (.inr ⟨.wstep c, rfl⟩))
  | mstep => exact .inr (.inr (.inr ⟨.mstep, rfl⟩))
  | crclr => exact .inr (.inr (.inr ⟨.crclr, rfl⟩))

end Totality

section Tick

/-! A tick leaves the four registers of a channel that the host owns (R35). -/

@[simp] theorem tickBlock_tw (s : State) (c : Channel) :
    ((tickBlock s).chan c).tw = (s.chan c).tw := by
  rw [tickBlock_chan]; split <;> rfl
@[simp] theorem tickBlock_ds (s : State) (c : Channel) :
    ((tickBlock s).chan c).ds = (s.chan c).ds := by
  rw [tickBlock_chan]; split <;> rfl
@[simp] theorem tickBlock_bl (s : State) (c : Channel) :
    ((tickBlock s).chan c).bl = (s.chan c).bl := by
  rw [tickBlock_chan]; split <;> rfl
@[simp] theorem tickBlock_ws (s : State) (c : Channel) :
    ((tickBlock s).chan c).ws = (s.chan c).ws := by
  rw [tickBlock_chan]; split <;> rfl

theorem tickBlock_sameHostOwned (s : State) : sameHostOwned s (tickBlock s) :=
  ⟨tickBlock_tw s, tickBlock_ds s, tickBlock_ws s, tickBlock_bl s, tickBlock_mode s⟩

/-- A tick in Off holds the accumulators (R137). -/
theorem tickBlock_acc_of_off {s : State} (hm : s.mode = .off) (c : Channel) :
    ((tickBlock s).chan c).acc = (s.chan c).acc := by
  rw [tickBlock_chan, if_pos hm]

/-- A tick in Off writes both outputs zero (R136). -/
theorem tickBlock_silent_of_off {s : State} (hm : s.mode = .off) : (tickBlock s).silent := by
  have hout (c : Channel) : ((tickBlock s).chan c).out = 0 := by rw [tickBlock_chan, if_pos hm]
  exact ⟨hout .a, hout .b⟩

/-- A command runs no tick. -/
theorem not_runsTick_ofCommand (cmd : Command) (s : State) : ¬ runsTick (Instr.ofCommand cmd) s := by
  cases cmd <;> simp [runsTick, Instr.ofCommand]

/-- A clock edge runs a tick exactly at 509 (R145). -/
theorem runsTick_clk_iff (valid : Bool) (w : CommandWord) (s : State) :
    runsTick (.clk valid w) s ↔ s.presc.val = 509 := by
  simp [runsTick]

end Tick

section CommandWriters

/-! Which command can change each element: the contrapositive of the frame of each command's write. -/

/-! No command writes what the tick owns, or the prescaler (R35). -/

@[simp] theorem applyCommand_acc (cmd : Command) (s : State) (c : Channel) :
    ((applyCommand cmd s).chan c).acc = (s.chan c).acc :=
  (applyCommand_frame cmd s).left c
@[simp] theorem applyCommand_out (cmd : Command) (s : State) (c : Channel) :
    ((applyCommand cmd s).chan c).out = (s.chan c).out := by
  obtain ⟨-, hout, -⟩ := applyCommand_frame cmd s
  exact hout c
@[simp] theorem applyCommand_tc (cmd : Command) (s : State) : (applyCommand cmd s).tc = s.tc := by
  obtain ⟨-, -, htc, -⟩ := applyCommand_frame cmd s
  exact htc
@[simp] theorem applyCommand_presc (cmd : Command) (s : State) :
    (applyCommand cmd s).presc = s.presc := by
  obtain ⟨-, -, -, hpresc, -⟩ := applyCommand_frame cmd s
  exact hpresc

theorem applyCommand_sameTickOwned (cmd : Command) (s : State) :
    sameTickOwned s (applyCommand cmd s) :=
  ⟨applyCommand_acc cmd s, applyCommand_out cmd s, applyCommand_tc cmd s⟩

/-- What a command can do to the registers of channel `c` (R84): nothing, or the one write of a command on
that channel, or for channel B the base level of the mode that `MSTEP` enters (R138). -/
theorem applyCommand_chan_cases (cmd : Command) (s : State) (c : Channel) :
    (applyCommand cmd s).chan c = s.chan c ∨
      (∃ v, cmd = .settw c v ∧ (applyCommand cmd s).chan c = { s.chan c with tw := v }) ∨
      (∃ v, cmd = .setds c v ∧ (applyCommand cmd s).chan c = { s.chan c with ds := depthOperand v }) ∨
      (∃ v, cmd = .setbl c v ∧ (applyCommand cmd s).chan c = { s.chan c with bl := baseOperand v }) ∨
      (cmd = .wstep c ∧
        (applyCommand cmd s).chan c = { s.chan c with ws := nextWave (s.chan c).ws }) ∨
      (cmd = .mstep ∧ c = .b ∧
        (applyCommand cmd s).chan c = { s.chan c with bl := modeBase (nextMode s.mode) }) := by
  cases cmd with
  | nop => exact .inl rfl
  | settw d v =>
    by_cases h : c = d
    · subst h
      exact .inr (.inl ⟨v, rfl, by simp [applyCommand, setTuningWord, State.chan_setTw]⟩)
    · exact .inl (by simp [applyCommand, setTuningWord, State.chan_setTw, h])
  | setds d v =>
    by_cases h : c = d
    · subst h
      exact .inr (.inr (.inl ⟨v, rfl, by simp [applyCommand, setDepthShift, State.chan_setDs]⟩))
    · exact .inl (by simp [applyCommand, setDepthShift, State.chan_setDs, h])
  | setbl d v =>
    by_cases h : c = d
    · subst h
      exact .inr (.inr (.inr (.inl ⟨v, rfl, by simp [applyCommand, setBaseLevel, State.chan_setBl]⟩)))
    · exact .inl (by simp [applyCommand, setBaseLevel, State.chan_setBl, h])
  | wstep d =>
    by_cases h : c = d
    · subst h
      exact .inr (.inr (.inr (.inr (.inl ⟨rfl, by simp [applyCommand, stepWave, State.chan_setWs]⟩))))
    · exact .inl (by simp [applyCommand, stepWave, State.chan_setWs, h])
  | mstep =>
    cases c with
    | a => exact .inl rfl
    | b => exact .inr (.inr (.inr (.inr (.inr ⟨rfl, rfl, rfl⟩))))
  | crclr => exact .inl (State.setFc_chan s 0 c)

/-- A channel's tuning word, depth shift, base level and wave select change only by their own commands,
channel B's base level also by `MSTEP` (R22 to R25). -/
theorem applyCommand_chan_writers (cmd : Command) (s : State) (c : Channel) :
    (((applyCommand cmd s).chan c).tw ≠ (s.chan c).tw → ∃ v, cmd = .settw c v) ∧
      (((applyCommand cmd s).chan c).ds ≠ (s.chan c).ds → ∃ v, cmd = .setds c v) ∧
      (((applyCommand cmd s).chan c).bl ≠ (s.chan c).bl →
        (∃ v, cmd = .setbl c v) ∨ c = .b ∧ cmd = .mstep) ∧
      (((applyCommand cmd s).chan c).ws ≠ (s.chan c).ws → cmd = .wstep c) := by
  obtain hc | ⟨v, rfl, hc⟩ | ⟨v, rfl, hc⟩ | ⟨v, rfl, hc⟩ | ⟨rfl, hc⟩ | ⟨rfl, rfl, hc⟩ :=
    applyCommand_chan_cases cmd s c
  all_goals simp [hc]

/-- Only `MSTEP` writes the mode (R27). -/
theorem applyCommand_mode_of_ne {cmd : Command} (h : cmd ≠ .mstep) (s : State) :
    (applyCommand cmd s).mode = s.mode := by
  cases cmd with
  | mstep => exact absurd rfl h
  | nop => rfl
  | settw c v => exact State.setTw_mode s c v
  | setds c v => exact State.setDs_mode s c _
  | setbl c v => exact State.setBl_mode s c _
  | wstep c => exact State.setWs_mode s c _
  | crclr => exact State.setFc_mode s 0

@[simp] theorem applyCommand_mstep_mode (s : State) :
    (applyCommand .mstep s).mode = nextMode s.mode := rfl

/-- Among the commands only `CRCLR` writes the flag count (R30). -/
theorem applyCommand_fc_of_ne {cmd : Command} (h : cmd ≠ .crclr) (s : State) :
    (applyCommand cmd s).fc = s.fc := by
  cases cmd with
  | crclr => exact absurd rfl h
  | nop => rfl
  | settw c v => exact State.setTw_fc s c v
  | setds c v => exact State.setDs_fc s c _
  | setbl c v => exact State.setBl_fc s c _
  | wstep c => exact State.setWs_fc s c _
  | mstep => rfl

/-- A command word leaves the tick's elements, the prescaler and the ROM (R35), whatever its code (R85). -/
theorem applyCommandWord_frame (w : CommandWord) (s : State) :
    sameTickOwned s (applyCommandWord w s) ∧ (applyCommandWord w s).presc = s.presc ∧
      (applyCommandWord w s).rom = s.rom := by
  refine ⟨?_, ?_, applyCommandWord_rom w s⟩ <;>
    obtain ⟨cmd, -, h⟩ | h := applyCommandWord_cases w s <;> rw [h]
  · exact applyCommand_sameTickOwned cmd s
  · exact ⟨fun _ => rfl, fun _ => rfl, rfl⟩
  · exact applyCommand_presc cmd s

end CommandWriters

section Split

/-- The prescaler's part of a clock edge: the tick at 509 and nothing before, then a write of the
prescaler (R145). -/
theorem clockPrescaler_split (s : State) :
    ∃ p, clockPrescaler s = (if s.presc.val = 509 then tickBlock s else s).setPresc p := by
  split
  case isTrue h => exact ⟨0, clockPrescaler_of_last h⟩
  case isFalse h =>
    have hlt : s.presc.val + 1 < Config.tickDiv := by
      have := s.presc.le_last
      simp only [Config.tickDiv]
      omega
    exact ⟨_, clockPrescaler_of_lt hlt⟩

/-- What every operation but `RESET` can do: a tick or nothing leaves `u`, the prescaler is written (to a
new value by a clock edge only), and then a command that the operation performs acts, or none does. -/
theorem exec_split {i : Instr} {s t : State} (hi : i ≠ .reset) (h : exec i s = .next t) :
    ∃ (u : State) (p : Prescaler),
      (runsTick i s ∧ u = tickBlock s ∨ ¬ runsTick i s ∧ u = s) ∧
      (p ≠ s.presc → ∃ valid w, i = .clk valid w) ∧
      (t = u.setPresc p ∨ ∃ cmd, performs i cmd ∧ t = applyCommand cmd (u.setPresc p)) := by
  obtain rfl | rfl | ⟨valid, w, rfl⟩ | ⟨cmd, rfl⟩ := instr_kinds i
  · exact absurd rfl hi
  · cases h
    refine ⟨tickBlock s, s.presc, .inl ⟨.inl rfl, rfl⟩, fun hp => absurd rfl hp, .inl ?_⟩
    rw [← tickBlock_presc s]
    rfl
  · cases h
    obtain ⟨p, hp⟩ := clockPrescaler_split s
    refine ⟨if s.presc.val = 509 then tickBlock s else s, p, ?_, fun _ => ⟨valid, w, rfl⟩, ?_⟩
    · rw [runsTick_clk_iff]
      split
      · exact .inl ⟨‹_›, rfl⟩
      · exact .inr ⟨‹_›, rfl⟩
    · rw [← hp]
      cases valid with
      | false => exact .inl rfl
      | true =>
        obtain ⟨cmd, hdec, happ⟩ | happ := applyCommandWord_cases w (clockPrescaler s)
        · exact .inr ⟨cmd, .inr ⟨w, rfl, hdec⟩, happ⟩
        · exact .inl happ
  · rw [exec_ofCommand] at h
    cases h
    exact ⟨s, s.presc, .inr ⟨not_runsTick_ofCommand cmd s, rfl⟩, fun hp => absurd rfl hp,
      .inr ⟨cmd, .inl rfl, rfl⟩⟩

variable {α : Type} {x : State → α} {i : Instr} {s t : State}

/-- An element other than the prescaler that an operation changes was changed by its tick, or by a command
it performs. -/
theorem changed_by_tick_or_command (hpresc : ∀ s p, x (s.setPresc p) = x s) (hi : i ≠ .reset)
    (h : exec i s = .next t) (hne : x t ≠ x s) :
    (runsTick i s ∧ x (tickBlock s) ≠ x s) ∨
      ∃ cmd u, performs i cmd ∧ x (applyCommand cmd u) ≠ x u := by
  obtain ⟨u, p, hu, -, ht⟩ := exec_split hi h
  have htick (hxu : x u ≠ x s) : runsTick i s ∧ x (tickBlock s) ≠ x s := by
    obtain ⟨hrun, rfl⟩ | ⟨-, rfl⟩ := hu
    · exact ⟨hrun, hxu⟩
    · exact absurd rfl hxu
  obtain rfl | ⟨cmd, hcmd, rfl⟩ := ht
  · exact .inl (htick (by rwa [hpresc] at hne))
  · by_cases hx : x (applyCommand cmd (u.setPresc p)) = x (u.setPresc p)
    · exact .inl (htick (by rwa [hx, hpresc] at hne))
    · exact .inr ⟨cmd, _, hcmd, hx⟩

/-- An element that no command writes was changed by the tick. -/
theorem changed_by_tick (hpresc : ∀ s p, x (s.setPresc p) = x s)
    (hcmd : ∀ cmd s, x (applyCommand cmd s) = x s) (hi : i ≠ .reset) (h : exec i s = .next t)
    (hne : x t ≠ x s) : runsTick i s ∧ x (tickBlock s) ≠ x s := by
  obtain htick | ⟨cmd, u, -, hx⟩ := changed_by_tick_or_command hpresc hi h hne
  · exact htick
  · exact absurd (hcmd cmd u) hx

/-- An element that no tick writes was changed by a command the operation performs. -/
theorem changed_by_command (hpresc : ∀ s p, x (s.setPresc p) = x s)
    (htick : ∀ s, x (tickBlock s) = x s) (hi : i ≠ .reset) (h : exec i s = .next t)
    (hne : x t ≠ x s) : ∃ cmd u, performs i cmd ∧ x (applyCommand cmd u) ≠ x u := by
  obtain ⟨-, hx⟩ | hcmd := changed_by_tick_or_command hpresc hi h hne
  · exact absurd (htick s) hx
  · exact hcmd

end Split

section ElementWriters

/-! The writers of each element over all operations but `RESET` (R21 to R31). -/

variable {i : Instr} {s t : State} {c : Channel}

theorem acc_writers (hi : i ≠ .reset) (h : exec i s = .next t)
    (hne : (t.chan c).acc ≠ (s.chan c).acc) : runsTick i s ∧ s.mode ≠ .off := by
  obtain ⟨hrun, hacc⟩ := changed_by_tick (x := fun s => (s.chan c).acc) (by simp)
    (by simp) hi h hne
  exact ⟨hrun, fun hm => hacc (tickBlock_acc_of_off hm c)⟩

theorem out_writers (hi : i ≠ .reset) (h : exec i s = .next t)
    (hne : (t.chan c).out ≠ (s.chan c).out) : runsTick i s :=
  (changed_by_tick (x := fun s => (s.chan c).out) (by simp)
    (by simp) hi h hne).1

theorem tc_writers (hi : i ≠ .reset) (h : exec i s = .next t) (hne : t.tc ≠ s.tc) : runsTick i s :=
  (changed_by_tick (x := State.tc) (by simp)
    (by simp) hi h hne).1

theorem tw_writers (hi : i ≠ .reset) (h : exec i s = .next t)
    (hne : (t.chan c).tw ≠ (s.chan c).tw) : ∃ v, performs i (.settw c v) := by
  obtain ⟨cmd, u, hcmd, hx⟩ := changed_by_command (x := fun s => (s.chan c).tw) (by simp)
    (by simp) hi h hne
  obtain ⟨htw, -⟩ := applyCommand_chan_writers cmd u c
  obtain ⟨v, rfl⟩ := htw hx
  exact ⟨v, hcmd⟩

theorem ds_writers (hi : i ≠ .reset) (h : exec i s = .next t)
    (hne : (t.chan c).ds ≠ (s.chan c).ds) : ∃ v, performs i (.setds c v) := by
  obtain ⟨cmd, u, hcmd, hx⟩ := changed_by_command (x := fun s => (s.chan c).ds) (by simp)
    (by simp) hi h hne
  obtain ⟨-, hds, -⟩ := applyCommand_chan_writers cmd u c
  obtain ⟨v, rfl⟩ := hds hx
  exact ⟨v, hcmd⟩

theorem bl_writers (hi : i ≠ .reset) (h : exec i s = .next t)
    (hne : (t.chan c).bl ≠ (s.chan c).bl) :
    (∃ v, performs i (.setbl c v)) ∨ c = .b ∧ performs i .mstep := by
  obtain ⟨cmd, u, hcmd, hx⟩ := changed_by_command (x := fun s => (s.chan c).bl) (by simp)
    (by simp) hi h hne
  obtain ⟨-, -, hbl, -⟩ := applyCommand_chan_writers cmd u c
  obtain ⟨v, rfl⟩ | ⟨hb, rfl⟩ := hbl hx
  · exact .inl ⟨v, hcmd⟩
  · exact .inr ⟨hb, hcmd⟩

theorem ws_writers (hi : i ≠ .reset) (h : exec i s = .next t)
    (hne : (t.chan c).ws ≠ (s.chan c).ws) : performs i (.wstep c) := by
  obtain ⟨cmd, u, hcmd, hx⟩ := changed_by_command (x := fun s => (s.chan c).ws) (by simp)
    (by simp) hi h hne
  obtain ⟨-, -, -, hws⟩ := applyCommand_chan_writers cmd u c
  rwa [hws hx] at hcmd

theorem mode_writers (hi : i ≠ .reset) (h : exec i s = .next t) (hne : t.mode ≠ s.mode) :
    performs i .mstep := by
  obtain ⟨cmd, u, hcmd, hx⟩ := changed_by_command (x := State.mode) (by simp) tickBlock_mode hi h hne
  have hmstep : cmd = .mstep := by_contra fun hc => hx (applyCommand_mode_of_ne hc u)
  rwa [hmstep] at hcmd

theorem fc_writers (hi : i ≠ .reset) (h : exec i s = .next t) (hne : t.fc ≠ s.fc) :
    runsTick i s ∨ performs i .crclr := by
  obtain ⟨hrun, -⟩ | ⟨cmd, u, hcmd, hx⟩ := changed_by_tick_or_command (x := State.fc) (by simp) hi h hne
  · exact .inl hrun
  · have hcrclr : cmd = .crclr := by_contra fun hc => hx (applyCommand_fc_of_ne hc u)
    rw [hcrclr] at hcmd
    exact .inr hcmd

theorem presc_writers (hi : i ≠ .reset) (h : exec i s = .next t) (hne : t.presc ≠ s.presc) :
    ∃ valid w, i = .clk valid w := by
  obtain ⟨u, p, -, hp, ht⟩ := exec_split hi h
  have htp : t.presc = p := by
    obtain rfl | ⟨cmd, -, rfl⟩ := ht <;> simp
  exact hp (htp ▸ hne)

end ElementWriters

/-- Settles O45: each element's writers, from the one split of an operation into tick and command. -/
theorem everyElementHasItsWriters : Obligations.EveryElementHasItsWriters := by
  intro i s t h hi
  exact ⟨fun _ => acc_writers hi h, fun _ => tw_writers hi h, fun _ => ds_writers hi h,
    fun _ => bl_writers hi h, fun _ => ws_writers hi h, fun _ => out_writers hi h,
    mode_writers hi h, tc_writers hi h, fc_writers hi h, presc_writers hi h⟩

/-- Settles O44: the frame of a command word, and what a tick leaves to the host. -/
theorem ownershipPartition : Obligations.OwnershipPartition :=
  ⟨fun w s => ⟨_, performInput_command w s, applyCommandWord_frame w s⟩,
    fun s => ⟨_, exec_tick s, tickBlock_sameHostOwned s, tickBlock_presc s⟩⟩

section Silence

/-- R36 (h): in Off, once a tick has run (`ticked`), both outputs are zero. -/
def State.silentInOff (ticked : Bool) (s : State) : Prop :=
  ticked = true → s.mode = .off → s.silent

/-- An operation after which a tick has run since Off was entered: it ran a tick, or one had run before;
and it is no `RESET`, nor a mode step into Off. -/
theorem of_tickedSinceOff {ticked : Bool} {i : Instr} {s : State} (h : tickedSinceOff ticked i s = true) :
    i ≠ .reset ∧ (ticked = true ∨ runsTick i s) ∧ (performs i .mstep → s.mode ≠ .tune) := by
  cases i with
  | reset => simp [tickedSinceOff] at h
  | clk valid w =>
    simp only [tickedSinceOff, wrapsAt, carriesMstep, Bool.and_eq_true, Bool.or_eq_true,
      decide_eq_true_eq, Bool.not_eq_true', Bool.and_eq_false_iff, decide_eq_false_iff_not] at h
    obtain ⟨hrun, hstep⟩ := h
    refine ⟨by simp, by rwa [runsTick_clk_iff], ?_⟩
    rintro (hcmd | ⟨w', hclk, hdec⟩) hm
    · simp [Instr.ofCommand] at hcmd
    · cases hclk
      simp [hdec, hm] at hstep
  | mstep => simp_all [tickedSinceOff]
  | _ => simp_all [tickedSinceOff, performs, runsTick, Instr.ofCommand]

/-- A command keeps the outputs. -/
theorem silent_applyCommand {cmd : Command} {s : State} (h : s.silent) : (applyCommand cmd s).silent := by
  obtain ⟨-, hout, -⟩ := applyCommand_sameTickOwned cmd s
  exact ⟨(hout .a).trans h.1, (hout .b).trans h.2⟩

/-- An operation that ends in Off, without a mode step out of Tune, began in Off (R138). -/
theorem mode_off_before {i : Instr} {s t : State} (hi : i ≠ .reset) (h : exec i s = .next t)
    (hstep : performs i .mstep → s.mode ≠ .tune) (hoff : t.mode = .off) : s.mode = .off := by
  obtain ⟨u, p, hu, -, ht⟩ := exec_split hi h
  have hmode : (u.setPresc p).mode = s.mode := by
    obtain ⟨-, rfl⟩ | ⟨-, rfl⟩ := hu <;> simp
  obtain rfl | ⟨cmd, hcmd, rfl⟩ := ht
  · rwa [hmode] at hoff
  · by_cases hc : cmd = .mstep
    · subst hc
      rw [applyCommand_mstep_mode, nextMode_eq_off_iff, hmode] at hoff
      exact absurd hoff (hstep hcmd)
    · rwa [applyCommand_mode_of_ne hc, hmode] at hoff

/-- The outputs after an operation are those its tick left, or the old ones where it ran none. -/
theorem silent_of_exec {i : Instr} {s t : State} (hi : i ≠ .reset) (h : exec i s = .next t)
    (htick : runsTick i s → (tickBlock s).silent) (hold : ¬ runsTick i s → s.silent) : t.silent := by
  obtain ⟨u, p, hu, -, ht⟩ := exec_split hi h
  have hsilent : (u.setPresc p).silent := by
    obtain ⟨hrun, rfl⟩ | ⟨hrun, rfl⟩ := hu
    · exact htick hrun
    · exact hold hrun
  obtain rfl | ⟨cmd, -, rfl⟩ := ht
  · exact hsilent
  · exact silent_applyCommand hsilent

/-- Every operation keeps R36 (h), the history advancing with it. -/
theorem exec_keeps_silentInOff {ticked : Bool} {i : Instr} {s t : State} (hs : s.silentInOff ticked)
    (h : exec i s = .next t) : t.silentInOff (tickedSinceOff ticked i s) := by
  intro hticked hoff
  obtain ⟨hi, hran, hstep⟩ := of_tickedSinceOff hticked
  have hoff' : s.mode = .off := mode_off_before hi h hstep hoff
  refine silent_of_exec hi h (fun _ => tickBlock_silent_of_off hoff') fun hrun => ?_
  exact hs (hran.resolve_right hrun) hoff'

/-- A sequence of operations keeps R36 (h) and completes. -/
theorem execAll_keeps_silentInOff (l : List Instr) {ticked : Bool} {s : State}
    (hs : s.silentInOff ticked) :
    ∃ t, execAll l s = .next t ∧ t.silentInOff (tickedAfter ticked l s) := by
  induction l generalizing ticked s with
  | nil => exact ⟨s, rfl, hs⟩
  | cons i l ih =>
    obtain ⟨u, hu⟩ := exec_total i s
    obtain ⟨t, ht, hsilent⟩ := ih (exec_keeps_silentInOff hs hu)
    refine ⟨t, (execAll_cons_of_next l hu).trans ht, ?_⟩
    rwa [tickedAfter, hu]

/-- R36 (a) to (g) hold of every state, by the types of its elements. -/
theorem State.legal_of_types (s : State) : s.legal := by
  refine ⟨fun c => (s.chan c).ds.le_max, fun c => (s.chan c).ws.le_last,
    Nat.lt_succ_iff.mp s.mode.index.isLt, s.tc.le_last, s.presc.le_last, fun c => ?_,
    fun c => Nat.lt_succ_iff.mp (s.chan c).out.isLt⟩
  have := (s.chan c).acc.isLt
  rw [Nat.shiftRight_eq_div_pow]
  omega

end Silence

/-- Settles O47: an operation that ends in Off with a tick since began in Off, so its tick, or the one
before it, wrote the outputs zero. -/
theorem silenceInOffIsKept : Obligations.SilenceInOffIsKept :=
  fun _ _ _ _ hs h => exec_keeps_silentInOff hs h

/-- Settles O46: no tick has run right after `RESET`, so R36 (h) holds there, and the sequence keeps it. -/
theorem reachableStatesAreLegal : Obligations.ReachableStatesAreLegal := by
  intro l _ r _
  have hr : r.silentInOff false := fun hfalse => absurd hfalse Bool.false_ne_true
  obtain ⟨t, ht, hsilent⟩ := execAll_keeps_silentInOff l hr
  exact ⟨t, ht, t.legal_of_types, hsilent⟩

section Reset

/-- A step word with `rst = 1` is `RESET`, all else on the pins ignored (R87). -/
theorem decodeStepWord_of_rst {w : StepWord} (h : 2 ^ 41 ≤ w.toNat) : decodeStepWord w = .reset := by
  have hbit : w.getLsbD 41 = true := by
    have := w.isLt
    rw [getLsbD_eq_decide, decide_eq_true_eq]
    omega
  rw [decodeStepWord, if_pos hbit]

/-- Two `RESET` are as one (R200). -/
theorem resetBlock_resetBlock (s : State) : resetBlock (resetBlock s) = resetBlock s := rfl

/-- The pins after `RESET` are all 0, whatever the level of `rst`. -/
theorem pinsOf_resetBlock (rst : Bool) (s : State) :
    pinsOf rst (resetBlock s) = ⟨0, 0, 0, false, false⟩ := by
  cases rst <;> rfl

theorem performInput_edge (w : StepWord) (s : State) :
    performInput (.edge w) s = exec (decodeStepWord w) s := rfl

end Reset

/-- Settles O16: `resetBlock` is the reset state but for the inputs and the ROM. -/
theorem resetZeroesEveryElement : Obligations.ResetZeroesEveryElement := by
  intro s
  refine ⟨⟨resetBlock s, exec_reset s, rfl, rfl, rfl, rfl, rfl, rfl, resetBlock_rom s,
    fun rst => pinsOf_resetBlock rst s⟩, fun w hw => ?_, ?_⟩
  · rw [performInput_edge, decodeStepWord_of_rst hw]
  · rw [execAll_cons_of_next _ (exec_reset s), execAll_cons_of_next _ (exec_reset (resetBlock s)),
      resetBlock_resetBlock, exec_reset]
    rfl

/-- Settles O17, by evaluating `RESET` on the reset state. -/
theorem resetStateValues : Obligations.ResetStateValues := by
  refine ⟨exec_reset State.reset, fun c => ?_, rfl, rfl, rfl, rfl⟩
  cases c <;> rfl

/-- Settles O49: `MODE_BASE[Off]` is 0, and no input is pending. -/
theorem modeBaseRelationAtReset : Obligations.ModeBaseRelationAtReset :=
  ⟨rfl, fun _ hmem => absurd hmem List.not_mem_nil⟩

section Pins

/-- The control cycle is due from the 26th flag on (R33). -/
theorem controlDue_iff (n : Byte) : controlDue n = true ↔ 26 ≤ n.toNat := by
  simp only [controlDue, Config.crThresh, decide_eq_true_eq]
  omega

/-- `tick_o` shows the cycle before the tick, outside reset (R33). -/
theorem tickPin_iff (rst : Bool) (s : State) : tickPin rst s = true ↔ s.presc.val = 509 ∧ rst = false := by
  simp [tickPin, Config.tickDiv]

end Pins

/-- Settles O24, pin by pin. -/
theorem pinsShowTheState : Obligations.PinsShowTheState := by
  intro rst s
  refine ⟨rfl, rfl, ?_, controlDue_iff s.fc, tickPin_iff rst s⟩
  rw [pinsOf, modePin]
  cases s.mode <;> rfl

section StepDecodes

theorem performInput_of_ok {i : Input} {op : Instr} (h : decodeInput i = .ok op) (s : State) :
    performInput i s = exec op s := by
  simp only [performInput, h]

/-- A reserved code does nothing (R85). -/
theorem performInput_of_error {i : Input} {e : DecodeError} (h : decodeInput i = .error e) (s : State) :
    performInput i s = .next s := by
  simp only [performInput, h, execReserved, reservedCode, noOperation]

theorem decodeTableWord_eq_some_iff {nbits w : Nat} {op : Instr} :
    decodeTableWord nbits w = some op ↔ decodeInput (inputOfWord nbits w) = .ok op := by
  simp only [decodeTableWord]
  cases decodeInput (inputOfWord nbits w) <;> simp [Except.toOption]

/-- The step after placing a word performs it on the state it was placed in. -/
theorem step_withFetchWord (s : State) (nbits w : Nat) :
    step (s.withFetchWord nbits w) = performInput (inputOfWord nbits w) s :=
  step_of_input rfl

end StepDecodes

/-- Settles O27: a step performs the input at the pins, which runs what it decodes to. -/
theorem stepRunsTheDecodedOperation : Obligations.StepRunsTheDecodedOperation := by
  intro s i rest hin
  have hstep : step s = performInput i (s.setInputs rest) := step_of_input hin
  exact ⟨fun _ hop => hstep.trans (performInput_of_ok hop _),
    fun _ herr => hstep.trans (performInput_of_error herr _)⟩

/-- Settles O28: the placed word is taken again, so the state it is run on is the old one. -/
theorem placedWordIsRunNext : Obligations.PlacedWordIsRunNext := by
  intro s nbits w op hop
  rw [step_withFetchWord, performInput_of_ok (decodeTableWord_eq_some_iff.mp hop)]

end Sys2Proof.Machine

/-! PROOFS. The memory (`20_memory.md`): the flat addresses of the ROM, that nothing writes it, and the
order in which a run performs its inputs.

Two facts about one operation carry the section: it keeps the ROM (`exec_keeps_rom`), and it commutes with
replacing the inputs still to come (`exec_setInputs`). What a step and a run do follows from these. -/

namespace Sys2Proof.Machine

section FlatAddress

/-- An entry's flat address in numerals (R61). -/
theorem flatAddress_eq (sel : WaveSelect) (idx : Byte) : flatAddress sel idx = sel.val * 256 + idx.toNat :=
  rfl

theorem flatAddress_le_last (sel : WaveSelect) (idx : Byte) : flatAddress sel idx ≤ 2303 := by
  have hsel := sel.le_last
  have hidx := idx.isLt
  rw [flatAddress_eq]
  omega

/-- The entry at a flat address: the table is the quotient by 256 (R61). -/
theorem flatAddress_div (sel : WaveSelect) (idx : Byte) : flatAddress sel idx / 256 = sel.val := by
  have hidx := idx.isLt
  rw [flatAddress_eq]
  omega

/-- The entry at a flat address: the index is the remainder by 256 (R61). -/
theorem flatAddress_mod (sel : WaveSelect) (idx : Byte) : flatAddress sel idx % 256 = idx.toNat := by
  have hidx := idx.isLt
  rw [flatAddress_eq]
  omega

/-- `{sel[3:0], idx[7:0]}` reaches the whole ROM (R61). -/
theorem exists_flatAddress_eq {addr : Nat} (h : addr ≤ 2303) : ∃ sel idx, flatAddress sel idx = addr := by
  have hsel : addr / 256 < Config.nWaves := by
    simp only [Config.nWaves]
    omega
  refine ⟨⟨addr / 256, hsel⟩, BitVec.ofNat 8 (addr % 256), ?_⟩
  rw [flatAddress_eq, BitVec.toNat_ofNat]
  dsimp only
  omega

theorem memRead_flatAddress (m : Memory) (sel : WaveSelect) (idx : Byte) :
    memRead m (flatAddress sel idx) = some (romRead m sel idx) := by
  have hlt : flatAddress sel idx < romSize := Nat.lt_succ_of_le (flatAddress_le_last sel idx)
  rw [memRead, dif_pos hlt]
  congr 2
  · exact Fin.ext (flatAddress_div sel idx)
  · rw [Config.wtLen, flatAddress_mod, BitVec.ofNat_toNat, BitVec.setWidth_eq]

theorem memRead_eq_none (m : Memory) {addr : Nat} (h : 2304 ≤ addr) : memRead m addr = none :=
  dif_neg (Nat.not_lt_of_le h)

end FlatAddress

/-- Settles O25: quotient and remainder by 256 take a flat address back to its entry. -/
theorem flatAddressesAreTheEntries : Obligations.FlatAddressesAreTheEntries :=
  fun m => ⟨fun sel idx =>
      ⟨flatAddress_eq sel idx, flatAddress_le_last sel idx, memRead_flatAddress m sel idx⟩,
    fun _ => exists_flatAddress_eq, fun _ => memRead_eq_none m⟩

section Inputs

/-- An input performs the operation it decodes to, or changes nothing (R85). -/
theorem performInput_cases (i : Input) (s : State) :
    (∃ op, decodeInput i = .ok op ∧ performInput i s = exec op s) ∨
      ((∃ e, decodeInput i = .error e) ∧ performInput i s = .next s) := by
  cases h : decodeInput i with
  | ok op => exact .inl ⟨op, rfl, performInput_of_ok h s⟩
  | error e => exact .inr ⟨⟨e, rfl⟩, performInput_of_error h s⟩

/-- Every input answers a next state, reserved codes included (R180). -/
theorem performInput_total (i : Input) (s : State) : ∃ t, performInput i s = .next t := by
  obtain ⟨op, -, h⟩ | ⟨-, h⟩ := performInput_cases i s
  · rw [h]
    exact exec_total op s
  · exact ⟨s, h⟩

theorem step_total (s : State) : ∃ t, step s = .next t := performInput_total _ _

end Inputs

section RomKept

@[simp] theorem applyCommand_rom (cmd : Command) (s : State) : (applyCommand cmd s).rom = s.rom := by
  obtain ⟨-, -, -, -, -, hrom⟩ := applyCommand_frame cmd s
  exact hrom

/-- No operation writes the ROM, `RESET` included (R62). -/
theorem exec_keeps_rom {i : Instr} {s t : State} (h : exec i s = .next t) : t.rom = s.rom := by
  obtain rfl | rfl | ⟨valid, w, rfl⟩ | ⟨cmd, rfl⟩ := instr_kinds i
  · cases h
    exact resetBlock_rom s
  · cases h
    exact tickBlock_rom s
  · cases h
    exact clockEdge_rom valid w s
  · rw [exec_ofCommand] at h
    cases h
    exact applyCommand_rom cmd s

theorem performInput_keeps_rom {i : Input} {s t : State} (h : performInput i s = .next t) :
    t.rom = s.rom := by
  obtain ⟨op, -, hop⟩ | ⟨-, hsame⟩ := performInput_cases i s
  · exact exec_keeps_rom (hop.symm.trans h)
  · cases hsame.symm.trans h
    rfl

/-- No step writes the ROM, whatever the input taken (R62). -/
theorem step_keeps_rom {s t : State} (h : step s = .next t) : t.rom = s.rom :=
  performInput_keeps_rom (s := takeInput s) h

/-- A run of any length completes with the ROM it began with (R62, R180). -/
theorem run_keeps_rom (n : Nat) (s : State) :
    ∃ t : State, Host.Core.run Sys2Proof.core n s = Host.Outcome.next t ∧ t.rom = s.rom := by
  induction n generalizing s with
  | zero => exact ⟨s, rfl, rfl⟩
  | succ n ih =>
    obtain ⟨u, hu⟩ := step_total s
    obtain ⟨t, ht, hrom⟩ := ih u
    exact ⟨t, (run_succ_of_next n hu).trans ht, hrom.trans (step_keeps_rom hu)⟩

end RomKept

/-- Settles O26, by kind of operation and then by the length of the run. -/
theorem romIsNeverWritten : Obligations.RomIsNeverWritten := by
  refine ⟨fun i s => ?_, run_keeps_rom⟩
  obtain ⟨t, ht⟩ := exec_total i s
  have hrom := exec_keeps_rom ht
  exact ⟨t, ht, hrom, fun sel idx => by rw [hrom]⟩

/-- Settles O50: the list of named bytes is the same after the step. -/
theorem memoryFormIsKept : Obligations.MemoryFormIsKept := by
  refine ⟨fun s t hwf hstep => ?_, Memory.wf_reset⟩
  rwa [step_keeps_rom hstep]

section Schedule

/-- No operation looks at the inputs still to come (assumption log 1). -/
theorem exec_setInputs {i : Instr} {s t : State} (l : List Input) (h : exec i s = .next t) :
    exec i (s.setInputs l) = .next (t.setInputs l) := by
  obtain rfl | rfl | ⟨valid, w, rfl⟩ | ⟨cmd, rfl⟩ := instr_kinds i
  · cases h
    rfl
  · cases h
    rw [exec_tick, tickBlock_setInputs]
  · cases h
    rw [exec_clk, clockEdge_setInputs]
  · rw [exec_ofCommand] at h ⊢
    cases h
    rw [applyCommand_setInputs]

theorem performInput_setInputs {i : Input} {s t : State} (l : List Input)
    (h : performInput i s = .next t) : performInput i (s.setInputs l) = .next (t.setInputs l) := by
  obtain ⟨op, hdec, hop⟩ | ⟨⟨e, hdec⟩, hsame⟩ := performInput_cases i s
  · rw [performInput_of_ok hdec]
    exact exec_setInputs l (hop.symm.trans h)
  · cases hsame.symm.trans h
    exact performInput_of_error hdec _

/-- Performing an input leaves the ones still to come: replacing them by themselves changes nothing. -/
theorem performInput_keeps_inputs {i : Input} {s t : State} (h : performInput i s = .next t) :
    t.inputs = s.inputs := by
  have hself : performInput i s = .next (t.setInputs s.inputs) := performInput_setInputs s.inputs h
  have ht : t = t.setInputs s.inputs := Host.Outcome.next.inj (h.symm.trans hself)
  rw [ht, State.setInputs_inputs]

/-- A run takes the inputs it finds one a step, and each step leaves the rest to the next. -/
theorem run_eq_performAll (l rest : List Input) {s : State} (hin : s.inputs = l ++ rest) :
    Host.Core.run Sys2Proof.core l.length s = performAll l (s.setInputs rest) := by
  induction l generalizing s with
  | nil =>
    subst hin
    rfl
  | cons i l ih =>
    obtain ⟨t, ht⟩ := performInput_total i (s.setInputs (l ++ rest))
    have hstep : step s = .next t := (step_of_input hin).trans ht
    have hleft : t.inputs = l ++ rest := performInput_keeps_inputs ht
    have hperform : performInput i (s.setInputs rest) = .next (t.setInputs rest) :=
      performInput_setInputs (s := s.setInputs (l ++ rest)) rest ht
    rw [performAll_cons_of_next l hperform, ← ih hleft]
    exact run_succ_of_next l.length hstep

end Schedule

/-- Settles O30, by induction on the list of inputs. -/
theorem runPerformsInputsInOrder : Obligations.RunPerformsInputsInOrder :=
  fun l rest _ hin => run_eq_performAll l rest hin

end Sys2Proof.Machine

/-! PROOFS. The encoding (`30_encoding.md`): the fields of a command word and of a step word, the round trips
of the decoder and the encoder, the reserved codes and the pseudo-operations.

Two facts carry the round trips: what a packed word's fields are, and that masking a word masks its fields
(`and_packCommand`). What a word that decodes can be is said once (`decodeCommand_ok_cases`). -/

namespace Sys2Proof

section Fields

theorem dataField_eq_ofNat (w : CommandWord) : dataField w = BitVec.ofNat 32 (w.toNat % 2 ^ 32) := by
  rw [← dataField_toNat, BitVec.ofNat_toNat, BitVec.setWidth_eq]

/-- The bit of `CH` (R82, R8). -/
theorem chBit_chField (w : CommandWord) : chBit (chField w) = w.extractLsb' 32 1 := by
  apply BitVec.eq_of_toNat_eq
  rw [chField_eq, BitVec.extractLsb'_toNat, Nat.shiftRight_eq_div_pow]
  split <;> simp only [chBit, BitVec.toNat_ofNat] <;> omega

@[simp] theorem opField_packCommand (op : BitVec 4) (ch : BitVec 1) (d : Word) :
    opField (packCommand op ch d) = op := by
  have hch := ch.isLt
  have hd := d.isLt
  apply BitVec.eq_of_toNat_eq
  rw [opField_toNat, packCommand_toNat]
  omega

@[simp] theorem chField_packCommand (op : BitVec 4) (c : Channel) (d : Word) :
    chField (packCommand op (chBit c) d) = c := by
  have hd := d.isLt
  rw [chField_eq, packCommand_toNat]
  cases c with
  | a => exact if_neg (by simp only [chBit, BitVec.toNat_ofNat]; omega)
  | b => exact if_pos (by simp only [chBit, BitVec.toNat_ofNat]; omega)

@[simp] theorem dataField_packCommand (op : BitVec 4) (ch : BitVec 1) (d : Word) :
    dataField (packCommand op ch d) = d := by
  have hd := d.isLt
  apply BitVec.eq_of_toNat_eq
  rw [dataField_toNat, packCommand_toNat]
  omega

/-- A word is its four fields, `RSV` included (R81). -/
theorem append_fields (w : CommandWord) :
    (opField w ++ (w.extractLsb' 33 3 ++ (w.extractLsb' 32 1 ++ dataField w)) : CommandWord) = w := by
  rw [opField, dataField]
  simp only [BitVec.extractLsb'_append_extractLsb'_eq_extractLsb', BitVec.extractLsb'_eq_self]

/-- Keeping `OP` and parts of `CH` and `DATA` of a word keeps those parts of its fields, and clears `RSV`. -/
theorem and_packCommand (w : CommandWord) (ch : BitVec 1) (d : Word) :
    w &&& packCommand 0xF ch d =
      packCommand (opField w) (w.extractLsb' 32 1 &&& ch) (dataField w &&& d) := by
  have hop : opField w &&& 0xF = opField w := BitVec.and_allOnes
  conv_lhs => rw [← append_fields w]
  rw [packCommand, packCommand, BitVec.and_append, BitVec.and_append, BitVec.and_append, hop,
    BitVec.and_zero]

end Fields

section Decoder

/-- What a word that decodes can be (R84): its code is one of 0 to 6, and its command is that code's, with
the fields as operands. -/
theorem decodeCommand_ok_cases {w : CommandWord} {cmd : Command} (h : decodeCommand w = .ok cmd) :
    (opField w = 0 ∧ cmd = .nop) ∨
      (opField w = 1 ∧ cmd = .settw (chField w) (dataField w)) ∨
      (opField w = 2 ∧ cmd = .setds (chField w) (dataField w)) ∨
      (opField w = 3 ∧ cmd = .setbl (chField w) (dataField w)) ∨
      (opField w = 4 ∧ cmd = .wstep (chField w)) ∨
      (opField w = 5 ∧ cmd = .mstep) ∨
      (opField w = 6 ∧ cmd = .crclr) := by
  rw [decodeCommand] at h
  split at h
  case h_8 => cases h
  all_goals
    rename_i hop
    cases h
    simp [← BitVec.toNat_inj, hop]

/-- Codes 7 to 15 are reserved, and rejected by name (R85). -/
theorem decodeCommand_reserved {w : CommandWord} (h : 7 ≤ (opField w).toNat) :
    decodeCommand w = .error (.reservedOp (opField w)) := by
  rw [decodeCommand]
  split
  case h_8 => rfl
  all_goals omega

/-- The round trip on the seven commands. -/
theorem decodeCommand_encodeCommand (cmd : Command) : decodeCommand (encodeCommand cmd) = .ok cmd := by
  cases cmd <;> simp [decodeCommand, encodeCommand]

theorem decodeInput_encodeCommand (cmd : Command) :
    decodeInput (.command (encodeCommand cmd)) = .ok (Instr.ofCommand cmd) := by
  rw [decodeInput, decodeCommand_encodeCommand]
  rfl

/-- A step word's operation, by the number the word is (R87). -/
theorem decodeStepWord_eq (w : StepWord) :
    decodeStepWord w =
      if w.toNat / 2 ^ 41 = 1 then .reset
      else .clk (decide (w.toNat / 2 ^ 40 % 2 = 1)) (BitVec.ofNat 40 (w.toNat % 2 ^ 40)) := by
  have hrst : w.toNat / 2 ^ 41 % 2 = w.toNat / 2 ^ 41 := by
    have := w.isLt
    omega
  have hcmd : w.extractLsb' 0 40 = BitVec.ofNat 40 (w.toNat % 2 ^ 40) := by
    apply BitVec.eq_of_toNat_eq
    simp
  rw [decodeStepWord, getLsbD_eq_decide, getLsbD_eq_decide, hrst, hcmd]
  simp only [decide_eq_true_eq]

theorem decodeStepWord_ne_tick (w : StepWord) : decodeStepWord w ≠ .tick := by
  rw [decodeStepWord]
  split <;> exact Instr.noConfusion

/-- The round trip on the pins of a clock edge (R87). -/
theorem decodeStepWord_packStep (rst valid : Bool) (cmd : CommandWord) :
    decodeStepWord (packStep rst valid cmd) = if rst then .reset else .clk valid cmd := by
  have hc := cmd.isLt
  rw [decodeStepWord_eq, packStep_toNat]
  cases rst with
  | true =>
    have := Bool.toNat_lt valid
    exact if_pos (by simp only [Bool.toNat_true]; omega)
  | false =>
    have hvalid : (valid.toNat * 2 ^ 40 + cmd.toNat) / 2 ^ 40 = valid.toNat := by omega
    have hcmd : (valid.toNat * 2 ^ 40 + cmd.toNat) % 2 ^ 40 = cmd.toNat := by omega
    rw [Bool.toNat_false, Nat.zero_mul, Nat.zero_add, if_neg (by have := Bool.toNat_lt valid; omega),
      hvalid, hcmd, BitVec.ofNat_toNat, BitVec.setWidth_eq]
    cases valid <;> rfl

end Decoder

section CanonicalForm

/-- The bits that are not ignored, by operation code (R82). -/
theorem not_ignoredMask (op : BitVec 4) :
    ~~~ignoredMask op =
      if op = 1 ∨ op = 2 ∨ op = 3 then packCommand 0xF 1 (BitVec.allOnes 32)
      else if op = 4 then packCommand 0xF 1 0
      else packCommand 0xF 0 0 := by
  revert op
  decide

/-- The canonical form of a word, packed from its fields (R81). -/
theorem and_not_ignoredMask (w : CommandWord) :
    w &&& ~~~ignoredMask (opField w) =
      if opField w = 1 ∨ opField w = 2 ∨ opField w = 3 then
        packCommand (opField w) (chBit (chField w)) (dataField w)
      else if opField w = 4 then packCommand (opField w) (chBit (chField w)) 0
      else packCommand (opField w) 0 0 := by
  have hch : w.extractLsb' 32 1 &&& 1 = chBit (chField w) :=
    BitVec.and_allOnes.trans (chBit_chField w).symm
  have hnone {n : Nat} (x : BitVec n) : x &&& 0 = 0 := BitVec.and_zero
  simp only [not_ignoredMask, apply_ite (w &&& ·), and_packCommand, hch, hnone, BitVec.and_allOnes]

/-- Encoding what a word decodes to clears the ignored bits and keeps the others (R81, R82). -/
theorem encodeCommand_of_decodeCommand {w : CommandWord} {cmd : Command}
    (h : decodeCommand w = .ok cmd) : encodeCommand cmd = w &&& ~~~ignoredMask (opField w) := by
  rw [and_not_ignoredMask]
  obtain ⟨hop, rfl⟩ | ⟨hop, rfl⟩ | ⟨hop, rfl⟩ | ⟨hop, rfl⟩ | ⟨hop, rfl⟩ | ⟨hop, rfl⟩ | ⟨hop, rfl⟩ :=
    decodeCommand_ok_cases h <;> rw [hop] <;> rfl

/-- The encoder writes canonical words: it gives back the word it wrote, with the ignored bits cleared. -/
theorem canonicalWord_encodeCommand (cmd : Command) : canonicalWord (encodeCommand cmd) = true := by
  have h := encodeCommand_of_decodeCommand (decodeCommand_encodeCommand cmd)
  have hcleared (m : CommandWord) (hm : encodeCommand cmd = encodeCommand cmd &&& ~~~m) :
      encodeCommand cmd &&& m = 0 := by
    rw [hm, BitVec.and_assoc, BitVec.not_and_self]
    exact BitVec.and_zero
  exact decide_eq_true (hcleared _ h)

end CanonicalForm

end Sys2Proof

namespace Sys2Proof.Machine

/-- Settles O3: `packCommand` and `packStep` keep their fields apart. -/
theorem decodeOfEncodeIsTheOperation : Obligations.DecodeOfEncodeIsTheOperation := by
  intro i
  cases i with
  | nop => exact decodeInput_encodeCommand .nop
  | settw c v => exact decodeInput_encodeCommand (.settw c v)
  | setds c v => exact decodeInput_encodeCommand (.setds c v)
  | setbl c v => exact decodeInput_encodeCommand (.setbl c v)
  | wstep c => exact decodeInput_encodeCommand (.wstep c)
  | mstep => exact decodeInput_encodeCommand .mstep
  | crclr => exact decodeInput_encodeCommand .crclr
  | reset => exact congrArg Except.ok (decodeStepWord_packStep true false 0)
  | clk valid cmd => exact congrArg Except.ok (decodeStepWord_packStep false valid cmd)
  | tick => rfl

/-- Settles O4, by the operation code of the word. -/
theorem encodeOfDecodeIsCanonical : Obligations.EncodeOfDecodeIsCanonical :=
  fun _ cmd h => ⟨encodeCommand_of_decodeCommand h, canonicalWord_encodeCommand cmd⟩

section PseudoOperations

/-- `n` steps of a channel's wave select (R112), the mode untouched. -/
theorem execAll_replicate_wstep (c : Channel) (n : Nat) (s : State) :
    ∃ t, execAll (List.replicate n (.wstep c)) s = .next t ∧
      (t.chan c).ws.val = ((s.chan c).ws.val + n) % 9 ∧ t.mode = s.mode := by
  induction n generalizing s with
  | zero =>
    have hws := (s.chan c).ws.le_last
    exact ⟨s, rfl, by omega, rfl⟩
  | succ n ih =>
    obtain ⟨t, ht, hws, hmode⟩ := ih (s.setWs c (nextWave (s.chan c).ws))
    refine ⟨t, (execAll_cons_of_next _ (exec_wstep c s)).trans ht, ?_, hmode.trans (by simp)⟩
    rw [hws, State.chan_setWs, if_pos rfl, nextWave_val]
    omega

/-- `n` steps of the mode, on its number (R135, R138). -/
theorem execAll_replicate_mstep (n : Nat) (s : State) :
    ∃ t, execAll (List.replicate n .mstep) s = .next t ∧
      t.mode.index.toNat = (s.mode.index.toNat + n) % 4 := by
  induction n generalizing s with
  | zero => exact ⟨s, rfl, (Nat.mod_eq_of_lt s.mode.index.isLt).symm⟩
  | succ n ih =>
    obtain ⟨t, ht, hmode⟩ := ih ((s.setMode (nextMode s.mode)).setBl .b (modeBase (nextMode s.mode)))
    refine ⟨t, (execAll_cons_of_next _ (exec_mstep s)).trans ht, ?_⟩
    rw [hmode, State.setBl_mode, State.setMode_mode, nextMode_index]
    omega

/-- A mode's number names it (R135). -/
theorem Mode.ofIndex_index (m : Mode) : Mode.ofIndex m.index = m := by
  cases m <;> rfl

theorem Mode.eq_of_index_toNat_eq {m m' : Mode} (h : m.index.toNat = m'.index.toNat) : m = m' := by
  rw [← Mode.ofIndex_index m, BitVec.eq_of_toNat_eq h, Mode.ofIndex_index]

end PseudoOperations

/-- Settles O54: from number 0, `n` steps lead to number `n`. -/
theorem pseudoOperationsReachTheirTarget : Obligations.PseudoOperationsReachTheirTarget := by
  refine ⟨fun c k s hws => ?_, fun m s hoff => ?_⟩
  · obtain ⟨t, ht, htws, hmode⟩ := execAll_replicate_wstep c k.val s
    refine ⟨t, ht, Fin.ext ?_, hmode⟩
    rw [htws, hws, Nat.zero_add, Nat.mod_eq_of_lt k.isLt]
  · obtain ⟨t, ht, htmode⟩ := execAll_replicate_mstep m.index.toNat s
    have hzero : s.mode.index.toNat = 0 := by rw [hoff]; rfl
    refine ⟨t, ht, Mode.eq_of_index_toNat_eq ?_⟩
    rw [htmode, hzero, Nat.zero_add, Nat.mod_eq_of_lt m.index.isLt]

/-- Settles O1, by evaluating the decoder on each word. -/
theorem writtenOutWordsDecode : Obligations.WrittenOutWordsDecode :=
  ⟨rfl, rfl, rfl, rfl, rfl, rfl, rfl, rfl, rfl, rfl, rfl, rfl⟩

/-- Settles O2: the fields as numbers, then the decoder's own split on the code. -/
theorem commandWordFieldsDecode : Obligations.CommandWordFieldsDecode := by
  intro w
  dsimp only
  rw [← opField_toNat, ← chField_eq, ← dataField_eq_ofNat, BitVec.ofNat_toNat, BitVec.setWidth_eq,
    decodeCommand]
  split
  case h_8 h0 h1 h2 h3 h4 h5 h6 =>
    rw [if_neg h0, if_neg h1, if_neg h2, if_neg h3, if_neg h4, if_neg h5, if_neg h6]
  all_goals
    rename_i hop
    simp [hop]

/-- Settles O5, by the numbers of the bits. -/
theorem stepWordPatterns : Obligations.StepWordPatterns :=
  fun w => ⟨decodeStepWord_eq w, decodeStepWord_ne_tick w⟩

section Reserved

/-- A reserved code on the pins does nothing (R85). -/
theorem applyCommandWord_reserved {w : CommandWord} (h : 7 ≤ (opField w).toNat) (s : State) :
    applyCommandWord w s = s := by
  simp only [applyCommandWord, decodeCommand_reserved h, reservedCode, noOperation]

end Reserved

/-- Settles O7: a reserved code is rejected by the decoder, and a rejected word does nothing. -/
theorem reservedCodeChangesNothing : Obligations.ReservedCodeChangesNothing := by
  intro s w w' hw
  have hop : 7 ≤ (opField w).toNat := by
    rw [opField_toNat]
    omega
  refine ⟨?_, ?_⟩
  · rw [performInput_command, applyCommandWord_reserved hop]
  · rw [exec_clk, exec_clk, clockEdge_valid, clockEdge_idle, applyCommandWord_reserved hop]

end Sys2Proof.Machine

/-! PROOFS. The oscillator (`40_dds_nco.md`): the accumulator's closed form, its period and its index, and the
write of the tuning word.

One law about one operation carries the section (`exec_acc`): the accumulator advances by the tuning word
where the operation runs a tick outside Off, and holds everywhere else. -/

namespace Sys2Proof.Machine

section LiveTicks

variable {i : Instr} {s t : State}

/-- A tick outside Off advances the accumulator by the tuning word, with wrap-around (R100, R146). -/
theorem tickBlock_acc_of_ne_off (hm : s.mode ≠ .off) (c : Channel) :
    ((tickBlock s).chan c).acc.toNat = ((s.chan c).acc.toNat + (s.chan c).tw.toNat) % 2 ^ 32 := by
  rw [tickBlock_chan, if_neg hm]
  exact ncoNext_toNat _ _

/-- `liveTick` counts the tick an operation runs, outside Off (R105). -/
theorem liveTick_of_runsTick (hrun : runsTick i s) (hm : s.mode ≠ .off) : liveTick i s = 1 := by
  obtain rfl | ⟨valid, w, rfl, hp⟩ := hrun
  · exact if_pos hm
  · exact if_pos ⟨decide_eq_true hp, hm⟩

/-- An operation without a tick, or in Off, does not count (R105, R137). -/
theorem liveTick_of_not (h : ¬ (runsTick i s ∧ s.mode ≠ .off)) : liveTick i s = 0 := by
  cases i with
  | tick => exact if_neg fun hm => h ⟨.inl rfl, hm⟩
  | clk valid w =>
    exact if_neg fun ⟨hp, hm⟩ => h ⟨(runsTick_clk_iff valid w s).mpr (of_decide_eq_true hp), hm⟩
  | _ => rfl

theorem liveTicks_cons_of_next (l : List Instr) (h : exec i s = .next t) :
    liveTicks (i :: l) s = liveTick i s + liveTicks l t := by
  simp only [liveTicks, h]

/-- Every tick of a run of ticks from outside Off counts: no tick writes the mode. -/
theorem liveTicks_replicate_tick (n : Nat) (hm : s.mode ≠ .off) :
    liveTicks (List.replicate n .tick) s = n := by
  induction n generalizing s with
  | zero => rfl
  | succ n ih =>
    have hm' : (tickBlock s).mode ≠ .off := by rwa [tickBlock_mode]
    rw [List.replicate_succ, liveTicks_cons_of_next _ (exec_tick s), ih hm',
      liveTick_of_runsTick (.inl rfl) hm, Nat.add_comm]

end LiveTicks

section Accumulator

variable {i : Instr} {s t : State} {c : Channel}

/-- An operation that performs no `SETTW` of the channel keeps its tuning word (R22). -/
theorem exec_keeps_tw (hi : i ≠ .reset) (hset : ∀ v, ¬ performs i (.settw c v))
    (h : exec i s = .next t) : (t.chan c).tw = (s.chan c).tw := by
  by_contra hne
  obtain ⟨v, hv⟩ := tw_writers hi h hne
  exact hset v hv

/-- The accumulator after an operation with a tick is the one the tick left: its command, performed on the
state after the tick, does not write it (R21, R151). -/
theorem exec_acc_of_runsTick (hi : i ≠ .reset) (hrun : runsTick i s) (h : exec i s = .next t) :
    (t.chan c).acc = ((tickBlock s).chan c).acc := by
  obtain ⟨u, p, hu, -, ht⟩ := exec_split hi h
  obtain ⟨-, rfl⟩ | ⟨hnot, -⟩ := hu
  · obtain rfl | ⟨cmd, -, rfl⟩ := ht <;> simp
  · exact absurd hrun hnot

/-- One operation advances the accumulator by the tuning word once for each live tick, so by nothing
where it has none (R100, R137). -/
theorem exec_acc (hi : i ≠ .reset) (h : exec i s = .next t) :
    (t.chan c).acc.toNat =
      ((s.chan c).acc.toNat + liveTick i s * (s.chan c).tw.toNat) % 2 ^ 32 := by
  by_cases hlive : runsTick i s ∧ s.mode ≠ .off
  · obtain ⟨hrun, hm⟩ := hlive
    rw [liveTick_of_runsTick hrun hm, Nat.one_mul, exec_acc_of_runsTick hi hrun h,
      tickBlock_acc_of_ne_off hm]
  · have hacc : (t.chan c).acc = (s.chan c).acc := by
      by_contra hne
      exact hlive (acc_writers hi h hne)
    rw [liveTick_of_not hlive, Nat.zero_mul, Nat.add_zero, hacc, Nat.mod_eq_of_lt (BitVec.isLt _)]

/-- The closed form of R105, over any sequence of operations that leaves the tuning word alone. -/
theorem execAll_acc (l : List Instr)
    (hl : ∀ i ∈ l, i ≠ .reset ∧ ∀ v, ¬ performs i (.settw c v)) (s : State) :
    ∃ t, execAll l s = .next t ∧ (t.chan c).tw = (s.chan c).tw ∧
      (t.chan c).acc.toNat =
        ((s.chan c).acc.toNat + liveTicks l s * (s.chan c).tw.toNat) % 2 ^ 32 := by
  induction l generalizing s with
  | nil =>
    refine ⟨s, rfl, rfl, ?_⟩
    rw [liveTicks, Nat.zero_mul, Nat.add_zero, Nat.mod_eq_of_lt (BitVec.isLt _)]
  | cons i l ih =>
    obtain ⟨⟨hi, hset⟩, hrest⟩ := List.forall_mem_cons.mp hl
    obtain ⟨u, hu⟩ := exec_total i s
    have htwu : (u.chan c).tw = (s.chan c).tw := exec_keeps_tw hi hset hu
    obtain ⟨t, ht, htw, hacc⟩ := ih hrest u
    refine ⟨t, (execAll_cons_of_next l hu).trans ht, htw.trans htwu, ?_⟩
    rw [hacc, exec_acc hi hu, htwu, liveTicks_cons_of_next l hu, Nat.mod_add_mod, Nat.add_assoc,
      ← Nat.add_mul]

/-- The closed form for `n` ticks outside Off (R105). -/
theorem execAll_replicate_tick_acc (c : Channel) (n : Nat) (hm : s.mode ≠ .off) :
    ∃ t, execAll (List.replicate n .tick) s = .next t ∧
      (t.chan c).acc.toNat = ((s.chan c).acc.toNat + n * (s.chan c).tw.toNat) % 2 ^ 32 := by
  have hticks : ∀ i ∈ List.replicate n Instr.tick,
      i ≠ .reset ∧ ∀ v, ¬ performs i (.settw c v) := by
    intro i hmem
    obtain rfl := List.eq_of_mem_replicate hmem
    simp [performs, Instr.ofCommand]
  obtain ⟨t, ht, -, hacc⟩ := execAll_acc _ hticks s
  exact ⟨t, ht, by rwa [liveTicks_replicate_tick n hm] at hacc⟩

/-- `n` steps of size `T` come back to the start modulo `M` exactly when the period `M / gcd(T, M)`
divides `n`. -/
theorem add_mul_mod_eq_self_iff {a M : Nat} (ha : a < M) (n T : Nat) :
    (a + n * T) % M = a ↔ M / Nat.gcd T M ∣ n := by
  have hM : 0 < M := Nat.zero_lt_of_lt ha
  calc (a + n * T) % M = a
    _ ↔ a + n * T ≡ a [MOD M] := by rw [Nat.ModEq, Nat.mod_eq_of_lt ha]
    _ ↔ M ∣ n * T := Nat.add_modEq_left_iff
    _ ↔ M ∣ n * Nat.gcd T M := by rw [Nat.gcd_comm, Nat.dvd_mul_gcd_iff_dvd_mul]
    _ ↔ M / Nat.gcd T M ∣ n := by
      rw [Nat.div_dvd_iff_dvd_mul (Nat.gcd_dvd_right T M) (Nat.gcd_pos_of_pos_right T hM), Nat.mul_comm]

end Accumulator

/-- Settles O36, by induction on the sequence of operations. -/
theorem accumulatorClosedForm : Obligations.AccumulatorClosedForm :=
  fun _ l s hl => execAll_acc l hl s

/-- Settles O37: by the closed form, `n` ticks are `n` steps of the tuning word modulo `2^32`. -/
theorem phasePeriod : Obligations.PhasePeriod := by
  intro c n s hm
  obtain ⟨t, ht, hacc⟩ := execAll_replicate_tick_acc c n hm
  refine ⟨t, ht, ?_⟩
  rw [← BitVec.toNat_inj, hacc]
  exact add_mul_mod_eq_self_iff (BitVec.isLt _) n _

/-- Settles O38: by the closed form the accumulator is `n * 2^24` modulo `2^32`. -/
theorem fullCycleIndex : Obligations.FullCycleIndex := by
  intro c n s hm hzero htw
  obtain ⟨t, ht, hacc⟩ := execAll_replicate_tick_acc c n hm
  refine ⟨t, ht, ?_⟩
  have hacc' : (t.chan c).acc.toNat = n * 2 ^ 24 % 2 ^ 32 := by
    simpa [hzero, htw] using hacc
  rw [phaseIndexWire, phaseIndex_toNat, hacc']
  omega

section CanonicalWord

/-- The word packed from the fields is the number R81 gives it. -/
theorem packCommand_chBit (op : BitVec 4) (c : Channel) (d : Word) :
    packCommand op (chBit c) d = commandWordOf op.toNat c d.toNat := by
  have hnum : (chBit c).toNat = chNum c := by cases c <;> rfl
  rw [commandWordOf, ← hnum, ← packCommand_toNat, BitVec.ofNat_toNat, BitVec.setWidth_eq]

/-- The canonical word of a command performs it as an event of its own (R84). -/
theorem performInput_encodeCommand (cmd : Command) (s : State) :
    performInput (.command (encodeCommand cmd)) s = exec (Instr.ofCommand cmd) s :=
  performInput_of_ok (decodeInput_encodeCommand cmd) s

end CanonicalWord

/-- Settles O8: the write of `tw`, and the canonical word as the encoder packs it. -/
theorem settwWritesTuningWordOnly : Obligations.SettwWritesTuningWordOnly := by
  intro c v s
  refine ⟨?_, ?_⟩
  · rw [exec_settw]
    cases c <;> rfl
  · have hword : encodeCommand (.settw c v) = commandWordOf 1 c v.toNat := packCommand_chBit 1 c v
    rw [← hword]
    exact performInput_encodeCommand (.settw c v) s

end Sys2Proof.Machine

/-! PROOFS. The wavetable (`41_wavetable.md`): the step of the wave select. A row of steps is one write of the
wave select (`execAll_replicate_wstep_frame`), so nine of them, which restore its value, restore the state. -/

namespace Sys2Proof.Machine

section WaveStep

/-- The later of two writes of a channel's wave select wins. -/
@[simp] theorem State.setWs_setWs (s : State) (c : Channel) (k k' : WaveSelect) :
    (s.setWs c k).setWs c k' = s.setWs c k' := by
  cases c <;> rfl

/-- Writing the wave select a channel already has changes nothing. -/
@[simp] theorem State.setWs_self (s : State) (c : Channel) : s.setWs c (s.chan c).ws = s := by
  cases c <;> rfl

/-- Any number of wave steps on a channel write that channel's wave select and nothing else (R112). -/
theorem execAll_replicate_wstep_frame (c : Channel) (n : Nat) (s : State) :
    ∃ k, execAll (List.replicate n (.wstep c)) s = .next (s.setWs c k) := by
  induction n generalizing s with
  | zero => exact ⟨(s.chan c).ws, by rw [State.setWs_self]; rfl⟩
  | succ n ih =>
    obtain ⟨k, hk⟩ := ih (s.setWs c (nextWave (s.chan c).ws))
    rw [State.setWs_setWs] at hk
    exact ⟨k, (execAll_cons_of_next _ (exec_wstep c s)).trans hk⟩

/-- Wave steps in a multiple of nine restore the state: the wave select is counted modulo 9 (R112). -/
theorem execAll_replicate_wstep_of_dvd {n : Nat} (h : 9 ∣ n) (c : Channel) (s : State) :
    execAll (List.replicate n (.wstep c)) s = .next s := by
  obtain ⟨k, hk⟩ := execAll_replicate_wstep_frame c n s
  obtain ⟨t, ht, hws, -⟩ := execAll_replicate_wstep c n s
  obtain rfl : s.setWs c k = t := Host.Outcome.next.inj (hk.symm.trans ht)
  have hval : k.val = ((s.chan c).ws.val + n) % 9 := by
    simpa only [State.chan_setWs, if_pos] using hws
  have hsame : k = (s.chan c).ws := by
    have hlast := (s.chan c).ws.le_last
    apply Fin.ext
    omega
  rw [hk, hsame, State.setWs_self]

/-- The channel a word names, by the number of its `CH` bit (R82, R8). -/
theorem chField_eq_of_chNum {w : CommandWord} {c : Channel} (h : w.toNat / 2 ^ 32 % 2 = chNum c) :
    chField w = c := by
  rw [chField_eq, h]
  cases c <;> rfl

/-- A word with operation code 4 is a wave step of the channel it names, its other bits ignored (R84). -/
theorem decodeCommand_of_opField_eq_four {w : CommandWord} (h : (opField w).toNat = 4) :
    decodeCommand w = .ok (.wstep (chField w)) := by
  simp only [decodeCommand, h]

end WaveStep

/-- Settles O11: the write of `ws`, the decoder on code 4, and nine steps as a multiple of nine. -/
theorem wstepAdvancesWaveSelectOnly : Obligations.WstepAdvancesWaveSelectOnly := by
  intro c s
  refine ⟨⟨nextWave (s.chan c).ws, nextWave_val _, ?_⟩, fun w hop hch => ?_,
    execAll_replicate_wstep_of_dvd (dvd_refl 9) c s⟩
  · rw [exec_wstep]
    cases c <;> rfl
  · have hcmd : decodeCommand w = .ok (.wstep c) := by
      rw [decodeCommand_of_opField_eq_four ((opField_toNat w).trans hop), chField_eq_of_chNum hch]
    rw [performInput_command, applyCommandWord, hcmd]
    exact (exec_ofCommand (.wstep c) s).symm

end Sys2Proof.Machine

/-! PROOFS. The combiner (`42_combiner.md`): the range of its output, its distance from the base level, the
full depth shift, the writes of the depth shift and the base level, and the relation of channel B's base level
to the mode.

The combiner moves the base level by the scaled sample, as far as the policy leaves room (`combine_distance`).
The relation of R127 is an invariant of the commands other than `SETBL B` (`applyCommand_keeps_modeBase`); a
tick and the prescaler touch neither side of it. -/

namespace Sys2Proof.Machine

section Distance

/-- How far a policy can move the output from base level `b`: down to 0 under `SUB` (R121), up to 255 under
`ADD` (R122). -/
def Polarity.room (p : Polarity) (b : Byte) : Nat :=
  match p with
  | .sub => b.toNat
  | .add => 255 - b.toNat

/-- The output's distance from the base level is the scaled sample, cut off at the room there is. -/
theorem combine_distance (p : Polarity) (b m : Byte) :
    (((combine p b m).toNat : Int) - b.toNat).natAbs = min (p.room b) m.toNat := by
  have hb := b.isLt
  cases p with
  | sub =>
    rw [combine_sub_toNat, Polarity.room]
    omega
  | add =>
    rw [combine_add_toNat, Polarity.room]
    omega

/-- With nothing to add or subtract the combiner puts out the base level (R121, R122). -/
theorem combine_zero (p : Polarity) (b : Byte) : combine p b 0 = b := by
  have hdist : (((combine p b 0).toNat : Int) - b.toNat).natAbs = 0 :=
    (combine_distance p b 0).trans (Nat.min_zero _)
  apply BitVec.eq_of_toNat_eq
  omega

/-- A larger depth shift scales the sample down further (R120). -/
theorem depthScale_anti (x : Byte) {d d' : DepthShift} (h : d.val ≤ d'.val) :
    (depthScale x d').toNat ≤ (depthScale x d).toNat := by
  rw [depthScale_toNat, depthScale_toNat]
  exact Nat.div_le_div_left (Nat.pow_le_pow_right Nat.two_pos h) (Nat.two_pow_pos _)

/-- The largest depth shift leaves nothing of an 8-bit sample (R120). -/
theorem depthScale_of_max (x : Byte) {d : DepthShift} (h : d.val = 8) : depthScale x d = 0 := by
  apply BitVec.eq_of_toNat_eq
  rw [depthScale_toNat, h]
  exact Nat.div_eq_of_lt x.isLt

end Distance

/-- Settles O34: channel A subtracts from the base level, channel B adds to it up to 255. -/
theorem combinerOutputInRange : Obligations.CombinerOutputInRange := by
  intro r x
  refine ⟨?_, ?_, fun c => Nat.le_of_lt_succ (combOut c r x).isLt⟩
  · rw [combOut_a_toNat]
    exact Nat.sub_le _ _
  · rw [combOut_b_toNat]
    exact le_min (Nat.le_of_lt_succ r.bl.isLt) (Nat.le_add_right _ _)

/-- Settles O35: the distance is the scaled sample cut off, and the scaled sample falls as the shift grows. -/
theorem depthShiftIsMonotone : Obligations.DepthShiftIsMonotone := by
  intro p b x d d' hd
  rw [combine_distance, combine_distance]
  refine ⟨min_le_min_left _ (depthScale_anti x (by omega)), ?_⟩
  rw [depthScale_toNat]
  cases p <;> rfl

section FullDepth

variable {s : State} {c : Channel}

/-- A tick outside Off at the largest depth shift writes the base level to the output, whatever the sample
(R123, R146). -/
theorem tickBlock_out_of_full_depth (hm : s.mode ≠ .off) (hds : (s.chan c).ds.val = 8) :
    ((tickBlock s).chan c).out = (s.chan c).bl := by
  rw [tickBlock_chan, if_neg hm]
  simp only [laneNext, combOut, depthScale_of_max _ hds, combine_zero]

/-- The same for every positive number of ticks: a tick keeps the mode, the depth shift and the base level. -/
theorem execAll_replicate_tick_out_of_full_depth (n : Nat) (hm : s.mode ≠ .off)
    (hds : (s.chan c).ds.val = 8) :
    ∃ t, execAll (List.replicate (n + 1) .tick) s = .next t ∧ (t.chan c).out = (s.chan c).bl := by
  induction n generalizing s with
  | zero => exact ⟨tickBlock s, rfl, tickBlock_out_of_full_depth hm hds⟩
  | succ n ih =>
    have hm' : (tickBlock s).mode ≠ .off := by rwa [tickBlock_mode]
    have hds' : ((tickBlock s).chan c).ds.val = 8 := by rwa [tickBlock_ds]
    obtain ⟨t, ht, hout⟩ := ih hm' hds'
    exact ⟨t, (execAll_cons_of_next _ (exec_tick s)).trans ht, hout.trans (tickBlock_bl s c)⟩

end FullDepth

/-- Settles O40, by induction on the number of ticks. -/
theorem fullDepthShiftGivesTheBase : Obligations.FullDepthShiftGivesTheBase := by
  intro c n s hm hds
  obtain ⟨t, ht, hout⟩ := execAll_replicate_tick_out_of_full_depth n hm hds
  refine ⟨t, ht, ?_⟩
  cases c <;> exact hout

section Operands

/-- A word read as signed, by the number it is (R83). -/
theorem toInt_eq_of_toNat (v : Word) :
    v.toInt = if v.toNat < 2 ^ 31 then (v.toNat : Int) else (v.toNat : Int) - 2 ^ 32 := by
  rw [BitVec.toInt_eq_toNat_cond]
  split <;> split <;> omega

/-- The word R81 gives a command with a channel and an operand performs that command (R84). -/
theorem performInput_commandWordOf {cmd : Command} {op : BitVec 4} {c : Channel} {v : Word}
    (h : encodeCommand cmd = packCommand op (chBit c) v) (s : State) :
    performInput (.command (commandWordOf op.toNat c v.toNat)) s = exec (Instr.ofCommand cmd) s := by
  rw [← packCommand_chBit, ← h, performInput_encodeCommand]

end Operands

/-- Settles O9: the write of `ds`, with the operand's sign by its number. -/
theorem setdsWritesClampedDepthOnly : Obligations.SetdsWritesClampedDepthOnly := by
  intro c v s
  refine ⟨⟨depthOperand v, ?_, ?_⟩, performInput_commandWordOf (cmd := .setds c v) (op := 2) rfl s⟩
  · rw [depthOperand_val, toInt_eq_of_toNat]
  · rw [exec_setds]
    cases c <;> rfl

/-- Settles O10: the write of `bl`. -/
theorem setblWritesSaturatedBaseOnly : Obligations.SetblWritesSaturatedBaseOnly := by
  intro c v s
  refine ⟨⟨baseOperand v, baseOperand_toNat v, ?_⟩,
    performInput_commandWordOf (cmd := .setbl c v) (op := 3) rfl s⟩
  rw [exec_setbl]
  cases c <;> rfl

section Performs

/-! Which command an operation performs. -/

theorem encode_ofCommand (cmd : Command) :
    encode (Instr.ofCommand cmd) = .command (encodeCommand cmd) := by
  cases cmd <;> rfl

/-- Two commands that are the same operation have the same canonical word, and that decodes to one. -/
theorem ofCommand_injective {cmd cmd' : Command} (h : Instr.ofCommand cmd = Instr.ofCommand cmd') :
    cmd = cmd' := by
  have hword : encodeCommand cmd = encodeCommand cmd' := by
    rw [← Input.command.injEq, ← encode_ofCommand, ← encode_ofCommand, h]
  rw [← Except.ok.injEq (ε := DecodeError), ← decodeCommand_encodeCommand, hword,
    decodeCommand_encodeCommand]

theorem ofCommand_ne_clk (cmd : Command) (valid : Bool) (w : CommandWord) :
    Instr.ofCommand cmd ≠ .clk valid w := by
  cases cmd <;> exact Instr.noConfusion

/-- A command as an event of its own performs itself and no other command. -/
theorem eq_of_performs_ofCommand {cmd cmd' : Command} (h : performs (Instr.ofCommand cmd) cmd') :
    cmd' = cmd := by
  obtain hsame | ⟨w, hclk, -⟩ := h
  · exact (ofCommand_injective hsame).symm
  · exact absurd hclk (ofCommand_ne_clk cmd true w)

theorem performs_clk_iff {valid : Bool} {w : CommandWord} {cmd : Command} :
    performs (.clk valid w) cmd ↔ valid = true ∧ decodeCommand w = .ok cmd := by
  cases cmd <;> simp [performs, Instr.ofCommand]

theorem not_performs_reset (cmd : Command) : ¬ performs .reset cmd := by
  cases cmd <;> simp [performs, Instr.ofCommand]

theorem not_performs_tick (cmd : Command) : ¬ performs .tick cmd := by
  cases cmd <;> simp [performs, Instr.ofCommand]

theorem wordSetsBaseB_of_ok {w : CommandWord} {cmd : Command} (h : decodeCommand w = .ok cmd) :
    wordSetsBaseB w = setsBaseB cmd := by
  simp only [wordSetsBaseB, h]

/-- An input that presents no `SETBL B` performs none, be it a command word or a clock edge. -/
theorem setsBaseB_of_performs {i : Input} {op : Instr} {cmd : Command} (hi : inputSetsBaseB i = false)
    (hdec : decodeInput i = .ok op) (hop : performs op cmd) : setsBaseB cmd = false := by
  cases i with
  | command w =>
    cases hw : decodeCommand w with
    | error e => simp [decodeInput, hw, Except.map] at hdec
    | ok cmd' =>
      have hop' : op = Instr.ofCommand cmd' := by
        simpa [decodeInput, hw, Except.map] using hdec.symm
      rw [hop'] at hop
      rw [eq_of_performs_ofCommand hop, ← wordSetsBaseB_of_ok hw]
      exact hi
  | edge w =>
    obtain rfl : decodeStepWord w = op := Except.ok.inj hdec
    by_cases hrst : w.getLsbD 41 = true
    · rw [decodeStepWord, if_pos hrst] at hop
      exact absurd hop (not_performs_reset cmd)
    · rw [decodeStepWord, if_neg hrst] at hop
      obtain ⟨hvalid, hw⟩ := performs_clk_iff.mp hop
      rw [inputSetsBaseB, Bool.eq_false_of_not_eq_true hrst, hvalid] at hi
      rw [← wordSetsBaseB_of_ok hw]
      exact hi
  | tick =>
    obtain rfl : Instr.tick = op := Except.ok.inj hdec
    exact absurd hop (not_performs_tick cmd)

end Performs

section ModeBase

variable {s t : State}

/-- A command other than `SETBL B` keeps channel B's base level at the mode's: `MSTEP` writes both (R138),
the others neither (R127). -/
theorem applyCommand_keeps_modeBase {cmd : Command} (hcmd : setsBaseB cmd = false)
    (hs : s.chB.bl = modeBase s.mode) :
    (applyCommand cmd s).chB.bl = modeBase (applyCommand cmd s).mode := by
  by_cases hm : cmd = .mstep
  · subst hm
    rfl
  · have hbl : ((applyCommand cmd s).chan .b).bl = (s.chan .b).bl := by
      by_contra hne
      obtain ⟨-, -, hwriters, -⟩ := applyCommand_chan_writers cmd s .b
      obtain ⟨v, rfl⟩ | ⟨-, hmstep⟩ := hwriters hne
      · simp [setsBaseB] at hcmd
      · exact hm hmstep
    rw [applyCommand_mode_of_ne hm, ← hs]
    exact hbl

/-- So does every operation that performs no `SETBL B`: `RESET` enters Off with base level 0 (R37), and a
tick writes neither. -/
theorem exec_keeps_modeBase {i : Instr} (hi : ∀ cmd, performs i cmd → setsBaseB cmd = false)
    (hs : s.chB.bl = modeBase s.mode) (h : exec i s = .next t) : t.chB.bl = modeBase t.mode := by
  by_cases hreset : i = .reset
  · subst hreset
    cases h
    rfl
  · obtain ⟨u, p, hu, -, ht⟩ := exec_split hreset h
    have hu' : (u.setPresc p).chB.bl = modeBase (u.setPresc p).mode := by
      obtain ⟨-, rfl⟩ | ⟨-, rfl⟩ := hu
      · rw [State.setPresc_chB, State.setPresc_mode, tickBlock_mode, ← hs]
        exact tickBlock_bl s .b
      · exact hs
    obtain rfl | ⟨cmd, hcmd, rfl⟩ := ht
    · exact hu'
    · exact applyCommand_keeps_modeBase (hi cmd hcmd) hu'

theorem performInput_keeps_modeBase {i : Input} (hi : inputSetsBaseB i = false)
    (hs : s.chB.bl = modeBase s.mode) (h : performInput i s = .next t) :
    t.chB.bl = modeBase t.mode := by
  obtain ⟨op, hdec, hop⟩ | ⟨-, hsame⟩ := performInput_cases i s
  · exact exec_keeps_modeBase (fun _ => setsBaseB_of_performs hi hdec) hs (hop.symm.trans h)
  · cases hsame.symm.trans h
    exact hs

/-- Where no pending input is a `SETBL B`, the next one is none: the idle edge carries no command (log 2). -/
theorem nextInput_not_setsBaseB (h : ∀ i ∈ s.inputs, inputSetsBaseB i = false) :
    inputSetsBaseB (nextInput s) = false := by
  rw [nextInput]
  split
  case h_1 => decide
  case h_2 i rest hin =>
    rw [hin] at h
    exact h i List.mem_cons_self

end ModeBase

/-- Settles O48: the step performs the next input, which is no `SETBL B`, and leaves the rest pending. -/
theorem modeBaseRelationIsKept : Obligations.ModeBaseRelationIsKept := by
  intro s t hs hstep
  obtain ⟨hbase, hinputs⟩ := hs
  have hleft : t.inputs = s.inputs.tail := performInput_keeps_inputs (s := takeInput s) hstep
  refine ⟨performInput_keeps_modeBase (s := takeInput s) (nextInput_not_setsBaseB hinputs) hbase hstep,
    fun i hmem => hinputs i ?_⟩
  rw [hleft] at hmem
  exact List.mem_of_mem_tail hmem

end Sys2Proof.Machine

/-! PROOFS. The mode and the output gate (`43_mode_gate.md`): the mode step, the outputs that lag it, and the
phase that holds in Off.

A row of mode steps enters one mode, as a single write of the mode and of channel B's base level
(`execAll_replicate_mstep_succ`). A row of ticks is `tickBlock` iterated (`execAll_replicate_tick`), so what
one tick keeps, the row keeps. -/

namespace Sys2Proof.Machine

section ModeStep

/-- `MODE_BASE` by the mode's number (R139). -/
theorem modeBase_toNat (m : Mode) :
    (modeBase m).toNat = if m.index.toNat = 1 then 50 else if m.index.toNat = 2 then 10 else 0 := by
  cases m <;> rfl

/-- A word with operation code 5 is a mode step, its other bits ignored (R84). -/
theorem decodeCommand_of_opField_eq_five {w : CommandWord} (h : (opField w).toNat = 5) :
    decodeCommand w = .ok .mstep := by
  simp only [decodeCommand, h]

/-- Mode steps, at least one, enter some mode: its number and its base level for channel B are written,
and nothing else (R138). -/
theorem execAll_replicate_mstep_succ (n : Nat) (s : State) :
    ∃ m, execAll (List.replicate (n + 1) .mstep) s = .next ((s.setMode m).setBl .b (modeBase m)) := by
  induction n generalizing s with
  | zero => exact ⟨nextMode s.mode, rfl⟩
  | succ n ih =>
    obtain ⟨m, hm⟩ := ih ((s.setMode (nextMode s.mode)).setBl .b (modeBase (nextMode s.mode)))
    exact ⟨m, (execAll_cons_of_next _ (exec_mstep s)).trans hm⟩

/-- Mode steps in a positive multiple of four return to the mode and its base level (R138). -/
theorem execAll_replicate_mstep_of_dvd {n : Nat} (h : 4 ∣ n + 1) (s : State) :
    execAll (List.replicate (n + 1) .mstep) s = .next (s.setBl .b (modeBase s.mode)) := by
  obtain ⟨m, hm⟩ := execAll_replicate_mstep_succ n s
  obtain ⟨t, ht, hindex⟩ := execAll_replicate_mstep (n + 1) s
  obtain rfl : (s.setMode m).setBl .b (modeBase m) = t := Host.Outcome.next.inj (hm.symm.trans ht)
  have hsame : m = s.mode := by
    have hlt := s.mode.index.isLt
    apply Mode.eq_of_index_toNat_eq
    rw [State.setBl_mode, State.setMode_mode] at hindex
    omega
  subst hsame
  exact hm

end ModeStep

/-- Settles O12: the write of the mode and of `bl[B]`, and the decoder on code 5. -/
theorem mstepAdvancesModeAndBase : Obligations.MstepAdvancesModeAndBase := by
  intro s
  refine ⟨⟨nextMode s.mode, modeBase (nextMode s.mode), nextMode_index _, modeBase_toNat _,
    exec_mstep s⟩, fun w hop => ?_⟩
  have hcmd : decodeCommand w = .ok .mstep :=
    decodeCommand_of_opField_eq_five ((opField_toNat w).trans hop)
  rw [performInput_command, applyCommandWord, hcmd]
  exact (exec_ofCommand .mstep s).symm

/-- Settles O13: four steps are a multiple of four. -/
theorem fourMstepsRestoreTheMode : Obligations.FourMstepsRestoreTheMode := by
  intro s
  refine ⟨modeBase s.mode, ?_, execAll_replicate_mstep_of_dvd (n := 3) (dvd_refl 4) s⟩
  cases s.mode <;> rfl

/-- Settles O23: a command leaves the outputs, and a tick in Off writes them zero. -/
theorem outputsLagTheMode : Obligations.OutputsLagTheMode := by
  intro s hm
  have hoff : (applyCommand .mstep s).mode = .off := by
    rw [applyCommand_mstep_mode, nextMode_eq_off_iff, hm]
  exact ⟨applyCommand .mstep s, _, exec_ofCommand .mstep s, hoff, applyCommand_out .mstep s .a,
    applyCommand_out .mstep s .b, exec_tick _, tickBlock_silent_of_off hoff⟩

section TickRow

/-- A row of ticks is the tick iterated. -/
theorem execAll_replicate_tick (n : Nat) (s : State) :
    execAll (List.replicate n .tick) s = .next (tickBlock^[n] s) := by
  induction n generalizing s with
  | zero => rfl
  | succ n ih => exact (execAll_cons_of_next _ (exec_tick s)).trans (ih (tickBlock s))

@[simp] theorem iterate_tickBlock_mode (n : Nat) (s : State) : (tickBlock^[n] s).mode = s.mode := by
  induction n generalizing s with
  | zero => rfl
  | succ n ih => rw [Function.iterate_succ_apply, ih, tickBlock_mode]

@[simp] theorem iterate_tickBlock_tw (n : Nat) (s : State) (c : Channel) :
    ((tickBlock^[n] s).chan c).tw = (s.chan c).tw := by
  induction n generalizing s with
  | zero => rfl
  | succ n ih => rw [Function.iterate_succ_apply, ih, tickBlock_tw]

/-- Any number of ticks in Off hold the phase (R137). -/
theorem iterate_tickBlock_acc_of_off {s : State} (hm : s.mode = .off) (n : Nat) (c : Channel) :
    ((tickBlock^[n] s).chan c).acc = (s.chan c).acc := by
  induction n generalizing s with
  | zero => rfl
  | succ n ih =>
    rw [Function.iterate_succ_apply, ih ((tickBlock_mode s).trans hm), tickBlock_acc_of_off hm]

/-- The sub-counter counts modulo 125 (R147). -/
theorem divNext_val (t : TickCount) : (divNext t).1.val = (t.val + 1) % 125 := by
  have hlast := t.le_last
  by_cases h : t.val = 124
  · rw [(divNext_of_last h).1, h]
  · rw [(divNext_of_lt (by omega)).1, Nat.mod_eq_of_lt (by omega)]

theorem tickBlock_tc_val (s : State) : (tickBlock s).tc.val = (s.tc.val + 1) % 125 := by
  rw [tickBlock_tc, divNext_val]

/-- The sub-counter after `n` ticks, in every mode (R137, R147). -/
theorem iterate_tickBlock_tc_val (n : Nat) (s : State) :
    (tickBlock^[n] s).tc.val = (s.tc.val + n) % 125 := by
  induction n generalizing s with
  | zero => exact (Nat.mod_eq_of_lt s.tc.isLt).symm
  | succ n ih =>
    rw [Function.iterate_succ_apply, ih, tickBlock_tc_val, Nat.mod_add_mod, Nat.add_assoc, Nat.add_comm 1]

/-- `MSTEP` writes no tuning word (R138). -/
@[simp] theorem applyCommand_mstep_tw (s : State) (c : Channel) :
    ((applyCommand .mstep s).chan c).tw = (s.chan c).tw := by
  by_contra hne
  obtain ⟨htw, -⟩ := applyCommand_chan_writers .mstep s c
  obtain ⟨v, hv⟩ := htw hne
  exact Command.noConfusion hv

end TickRow

/-- Settles O39: the ticks in Off hold the phase, `MSTEP` enters Fx with it, and the tick there advances it
once; the sub-counter counts them all. -/
theorem offHoldsThePhase : Obligations.OffHoldsThePhase := by
  intro c n s hm
  have hrun : execAll (List.replicate n .tick ++ [.mstep, .tick]) s =
      .next (tickBlock (applyCommand .mstep (tickBlock^[n] s))) :=
    execAll_append_of_next (execAll_replicate_tick n s)
  have hlive : (applyCommand .mstep (tickBlock^[n] s)).mode ≠ .off := by
    rw [applyCommand_mstep_mode, Ne, nextMode_eq_off_iff, iterate_tickBlock_mode, hm]
    exact Mode.noConfusion
  refine ⟨_, hrun, ?_, ?_⟩
  · rw [tickBlock_acc_of_ne_off hlive, applyCommand_acc, applyCommand_mstep_tw, iterate_tickBlock_tw,
      iterate_tickBlock_acc_of_off hm]
  · rw [tickBlock_tc_val, applyCommand_tc, iterate_tickBlock_tc_val, Nat.mod_add_mod]

end Sys2Proof.Machine

/-! PROOFS. The tick scheduler (`44_tick_scheduler.md`): the whole effect of a tick, the divider and the flag
count, the clock edge, and the event-level trace of a clock-level run.

Only `RESET` and the clock edge touch the prescaler, and what an edge does to the rest of the state does not
depend on it once it is known whether the edge wraps. So a clock edge is its events followed by a write of the
prescaler (`performAll_edgeEvents`), and a row of idle edges is a row of ticks followed by one
(`execAll_replicate_idle`). -/

namespace Sys2Proof.Machine

section Lanes

/-- The top 8 bits of an accumulator, as the index of a sample (R101). -/
theorem phaseIndex_eq_ofNat (a : Word) : phaseIndex a = BitVec.ofNat 8 (a.toNat / 2 ^ 24) := by
  rw [← phaseIndex_toNat, BitVec.ofNat_toNat, BitVec.setWidth_eq]

theorem laneNext_acc_toNat (m : Memory) (c : Channel) (r : ChannelRegs) :
    (laneNext m c r).1.toNat = (r.acc.toNat + r.tw.toNat) % 2 ^ 32 :=
  ncoNext_toNat r.acc r.tw

/-- A lane's sample is read at the index of the accumulator's new value, not its old one (R101, R146). -/
theorem laneNext_out (m : Memory) (c : Channel) (r : ChannelRegs) :
    (laneNext m c r).2 =
      combOut c r (romRead m r.ws (BitVec.ofNat 8 ((laneNext m c r).1.toNat / 2 ^ 24))) := by
  rw [← phaseIndex_eq_ofNat]
  rfl

/-- A tick in Off writes a channel's output zero and nothing else of it (R137). -/
theorem tickBlock_chan_of_off {s : State} (hm : s.mode = .off) (c : Channel) :
    (tickBlock s).chan c = { s.chan c with out := 0 } := by
  rw [tickBlock_chan, if_pos hm]

/-- A tick outside Off writes what the channel's lane computes, and nothing else of it (R146). -/
theorem tickBlock_chan_of_ne_off {s : State} (hm : s.mode ≠ .off) (c : Channel) :
    (tickBlock s).chan c =
      { s.chan c with acc := (laneNext s.rom c (s.chan c)).1, out := (laneNext s.rom c (s.chan c)).2 } := by
  rw [tickBlock_chan, if_neg hm]

end Lanes

section Divider

/-- The divider's part of a tick, in every mode (R147, R148). -/
theorem tickBlock_divider (s : State) :
    if s.tc.val = 124 then (tickBlock s).tc.val = 0 ∧ (tickBlock s).fc.toNat = min (s.fc.toNat + 1) 255
    else (tickBlock s).tc.val = s.tc.val + 1 ∧ (tickBlock s).fc = s.fc := by
  rw [tickBlock_tc, tickBlock_fc]
  split
  case isTrue hlast =>
    obtain ⟨htc, hflag⟩ := divNext_of_last hlast
    rw [if_pos hflag]
    exact ⟨htc, raiseFlag_toNat s.fc⟩
  case isFalse hne =>
    have hle := s.tc.le_last
    obtain ⟨htc, hflag⟩ := divNext_of_lt (t := s.tc) (by omega)
    rw [hflag]
    exact ⟨htc, rfl⟩

/-- A tick adds to the flag count, up to 255, what the sub-counter carries out of its 125 (R147, R148). -/
theorem tickBlock_fc_toNat (s : State) :
    (tickBlock s).fc.toNat = min 255 (s.fc.toNat + (s.tc.val + 1) / 125) := by
  have hdiv := tickBlock_divider s
  have hle := s.tc.le_last
  have hfc := s.fc.isLt
  split at hdiv
  case isTrue hlast =>
    obtain ⟨-, hraised⟩ := hdiv
    omega
  case isFalse hne =>
    obtain ⟨-, hsame⟩ := hdiv
    rw [hsame]
    omega

/-- The flag count after `n` ticks (R147, R148). -/
theorem iterate_tickBlock_fc_toNat (n : Nat) (s : State) :
    (tickBlock^[n] s).fc.toNat = min 255 (s.fc.toNat + (s.tc.val + n) / 125) := by
  induction n generalizing s with
  | zero =>
    have hle := s.tc.le_last
    have hfc := s.fc.isLt
    rw [Function.iterate_zero_apply]
    omega
  | succ n ih =>
    rw [Function.iterate_succ_apply, ih, tickBlock_fc_toNat, tickBlock_tc_val]
    omega

/-- From a cleared flag count `cr_ready` rises at the 26th flag, that is 3250 ticks after the sub-counter was
last 0 (R148). -/
theorem crReadyPin_iterate_tickBlock {s : State} (hfc : s.fc = 0) (n : Nat) :
    crReadyPin (tickBlock^[n] s) = true ↔ 3250 ≤ s.tc.val + n := by
  have hzero : s.fc.toNat = 0 := by rw [hfc]; rfl
  rw [crReadyPin, controlDue_iff, iterate_tickBlock_fc_toNat, hzero]
  omega

end Divider

section CommandOnEdge

/-- A word with operation code 0 does nothing, its other bits ignored (R84, R150). -/
theorem applyCommandWord_of_opField_eq_zero {w : CommandWord} (h : (opField w).toNat = 0) (s : State) :
    applyCommandWord w s = s := by
  simp only [applyCommandWord, decodeCommand, h, applyCommand, noOperation]

/-- A word with operation code 6 clears the flag count, its other bits ignored (R84, R149). -/
theorem applyCommandWord_of_opField_eq_six {w : CommandWord} (h : (opField w).toNat = 6) (s : State) :
    applyCommandWord w s = s.setFc 0 := by
  simp only [applyCommandWord, decodeCommand, h, applyCommand, clearFlagCount]

/-- The operation code of the word R81 gives a code, a channel and an operand. -/
theorem opField_commandWordOf (op : BitVec 4) (c : Channel) (d : Word) :
    opField (commandWordOf op.toNat c d.toNat) = op := by
  rw [← packCommand_chBit, opField_packCommand]

/-- A command on a clock edge is performed as an event of its own, on the state that the tick or the count
left (R151). -/
theorem exec_clk_valid (cmd : CommandWord) (s : State) :
    exec (.clk true cmd) s = performInput (.command cmd) (clockPrescaler s) := by
  rw [exec_clk, clockEdge_valid, performInput_command]

/-- The edge at 509, on a state that the tick alone leaves with its prescaler (R145). -/
theorem exec_clk_valid_of_last {s : State} (h : s.presc.val = 509) (cmd : CommandWord) :
    exec (.clk true cmd) s = performInput (.command cmd) ((tickBlock s).setPresc 0) := by
  rw [exec_clk_valid, clockPrescaler_of_last h]

/-- A prescaler that is not at 509 has room to count up. -/
theorem Prescaler.succ_lt_of_ne_last {p : Prescaler} (h : p.val ≠ 509) : p.val + 1 < Config.tickDiv := by
  have := p.le_last
  simp only [Config.tickDiv]
  omega

end CommandOnEdge

section EventTrace

@[simp] theorem State.setPresc_setPresc (s : State) (p q : Prescaler) :
    (s.setPresc p).setPresc q = s.setPresc q := rfl

/-- A list of inputs after one that completed. -/
theorem performAll_append_of_next {l m : List Input} {s t : State} (h : performAll l s = .next t) :
    performAll (l ++ m) s = performAll m t := by
  induction l generalizing s with
  | nil =>
    cases h
    rfl
  | cons i l ih =>
    obtain ⟨u, hu⟩ := performInput_total i s
    rw [performAll_cons_of_next l hu] at h
    rw [List.cons_append, performAll_cons_of_next _ hu, ih h]

/-- The prescaler after its part of a clock edge (R145). -/
theorem clockPrescaler_presc (s : State) :
    (clockPrescaler s).presc =
      if h : s.presc.val + 1 < Config.tickDiv then ⟨s.presc.val + 1, h⟩ else ⟨0, by decide⟩ := by
  rw [clockPrescaler]
  split
  · rw [State.setPresc_presc]
  · rw [tickBlock_presc, State.setPresc_presc]

theorem clockEdge_presc (valid : Bool) (cmd : CommandWord) (s : State) :
    (clockEdge valid cmd s).presc = (clockPrescaler s).presc := by
  cases valid with
  | false => rw [clockEdge_idle]
  | true =>
    obtain ⟨-, hpresc, -⟩ := applyCommandWord_frame cmd (clockPrescaler s)
    rw [clockEdge_valid, hpresc]

/-- The event of the prescaler's part of an edge: the tick where the edge wraps, whatever prescaler `p` the
event-level state has (R154). -/
theorem performAll_prescalerEvents (s : State) (p : Prescaler) :
    performAll (if s.presc.val + 1 < Config.tickDiv then [] else [.tick]) (s.setPresc p) =
      .next ((clockPrescaler s).setPresc p) := by
  by_cases h : s.presc.val = 509
  · have hwrap : ¬ s.presc.val + 1 < Config.tickDiv := by
      simp only [Config.tickDiv]
      omega
    rw [if_neg hwrap, clockPrescaler_of_last h, State.setPresc_setPresc, ← tickBlock_setPresc]
    rfl
  · have hlt := Prescaler.succ_lt_of_ne_last h
    rw [if_pos hlt, clockPrescaler_of_lt hlt, State.setPresc_setPresc]
    rfl

/-- The events of a clock edge without `RESET` lead where the edge leads, but for the prescaler (R154). -/
theorem performAll_clockEdgeEvents (valid : Bool) (cmd : CommandWord) (s : State) (p : Prescaler) :
    performAll ((if s.presc.val + 1 < Config.tickDiv then [] else [.tick]) ++
        (if valid then [.command cmd] else [])) (s.setPresc p) =
      .next ((clockEdge valid cmd s).setPresc p) := by
  rw [performAll_append_of_next (performAll_prescalerEvents s p)]
  cases valid with
  | false => rfl
  | true =>
    have hcmd : performInput (.command cmd) ((clockPrescaler s).setPresc p) =
        .next ((clockEdge true cmd s).setPresc p) := by
      rw [performInput_command, applyCommandWord_setPresc, clockEdge_valid]
    exact performAll_cons_of_next [] hcmd

/-- One clock edge and its events, from states that differ in the prescaler at most, lead to such states
again, and the edge leaves the prescaler that the trace goes on with (R154). -/
theorem performAll_edgeEvents (w : StepWord) (s : State) (p : Prescaler) :
    ∃ (t : State) (q : Prescaler), performInput (.edge w) s = .next t ∧
      t.presc = prescalerAfter s.presc w ∧
      performAll (edgeEvents s.presc w) (s.setPresc p) = .next (t.setPresc q) := by
  rw [edgeEvents, prescalerAfter, performInput_edge]
  by_cases hrst : w.getLsbD 41 = true
  · have hdec : decodeStepWord w = .reset := if_pos hrst
    refine ⟨resetBlock s, 0, by rw [hdec, exec_reset], (if_pos hrst).symm, ?_⟩
    have hreset : performInput (.edge w) (s.setPresc p) = .next ((resetBlock s).setPresc 0) := by
      rw [performInput_edge, hdec]
      rfl
    rw [if_pos hrst]
    exact performAll_cons_of_next [] hreset
  · have hdec : decodeStepWord w = .clk (w.getLsbD 40) (w.extractLsb' 0 40) := if_neg hrst
    refine ⟨clockEdge (w.getLsbD 40) (w.extractLsb' 0 40) s, p, by rw [hdec, exec_clk], ?_, ?_⟩
    · rw [if_neg hrst, clockEdge_presc, clockPrescaler_presc]
    · rw [if_neg hrst]
      exact performAll_clockEdgeEvents _ _ s p

/-- The simulation: a run of clock edges and its trace, from states that differ in the prescaler at most, end
in such states (R154). -/
theorem performAll_eventTrace (ws : List StepWord) (s : State) (p : Prescaler) :
    ∃ (t : State) (q : Prescaler), performAll (ws.map .edge) s = .next t ∧
      performAll (eventTrace ws s.presc) (s.setPresc p) = .next (t.setPresc q) := by
  induction ws generalizing s p with
  | nil => exact ⟨s, p, rfl, rfl⟩
  | cons w ws ih =>
    obtain ⟨u, r, hedge, hpresc, hevents⟩ := performAll_edgeEvents w s p
    obtain ⟨t, q, hrun, htrace⟩ := ih u r
    refine ⟨t, q, (performAll_cons_of_next _ hedge).trans hrun, ?_⟩
    rw [eventTrace, performAll_append_of_next hevents, ← hpresc, htrace]

end EventTrace

/-- Settles O33: by the simulation, the two final states differ in a write of the prescaler. -/
theorem clockRunRefinesEventTrace : Obligations.ClockRunRefinesEventTrace := by
  intro ws s
  obtain ⟨t, q, hrun, htrace⟩ := performAll_eventTrace ws s s.presc
  exact ⟨t, t.setPresc q, hrun, htrace, ⟨rfl, rfl, rfl, rfl, rfl, rfl⟩, rfl, q.le_last⟩

/-- Settles O21: lane by lane from the registers, then the divider. -/
theorem tickWholeEffect : Obligations.TickWholeEffect := by
  intro s
  refine ⟨tickBlock s, exec_tick s, ?_, tickBlock_divider s, tickBlock_mode s, tickBlock_presc s,
    tickBlock_inputs s, tickBlock_rom s⟩
  split
  case isTrue hm => exact ⟨tickBlock_chan_of_off hm .a, tickBlock_chan_of_off hm .b⟩
  case isFalse hm =>
    refine ⟨(laneNext s.rom .a s.chA).1, (laneNext s.rom .b s.chB).1, _, _,
      (laneNext s.rom .a s.chA).2, (laneNext s.rom .b s.chB).2, laneNext_acc_toNat _ _ _,
      laneNext_acc_toNat _ _ _, rfl, rfl, ?_, ?_, tickBlock_chan_of_ne_off hm .a,
      tickBlock_chan_of_ne_off hm .b⟩
    · rw [laneNext_out, combOut_a_toNat]
      omega
    · rw [laneNext_out, combOut_b_toNat]

section IdleEdges

/-- Ticks leave the prescaler alone, so a write of it may come before or after them (R35). -/
theorem iterate_tickBlock_setPresc (n : Nat) (s : State) (p : Prescaler) :
    tickBlock^[n] (s.setPresc p) = (tickBlock^[n] s).setPresc p := by
  have hcomm : Function.Commute tickBlock (·.setPresc p) := fun s => tickBlock_setPresc s p
  exact hcomm.iterate_left n s

/-- `n` idle edges are the ticks that the prescaler counts out of them, and a write of the prescaler (R145). -/
theorem execAll_replicate_idle (n : Nat) (s : State) :
    ∃ p : Prescaler, p.val = (s.presc.val + n) % 510 ∧
      execAll (List.replicate n (.clk false 0)) s =
        .next ((tickBlock^[(s.presc.val + n) / 510] s).setPresc p) := by
  induction n generalizing s with
  | zero =>
    have hle := s.presc.le_last
    have hnone : (s.presc.val + 0) / 510 = 0 := by omega
    exact ⟨s.presc, by omega, by rw [hnone]; rfl⟩
  | succ n ih =>
    obtain ⟨p, hp, hrun⟩ := ih (clockPrescaler s)
    have hfirst : execAll (List.replicate (n + 1) (.clk false 0)) s =
        execAll (List.replicate n (.clk false 0)) (clockPrescaler s) :=
      execAll_cons_of_next _ (exec_clk false 0 s)
    rw [hfirst, hrun]
    refine ⟨p, ?_⟩
    by_cases hlast : s.presc.val = 509
    · have hticks : (s.presc.val + (n + 1)) / 510 = n / 510 + 1 := by omega
      rw [clockPrescaler_of_last hlast, State.setPresc_presc, Fin.val_zero, Nat.zero_add] at hp ⊢
      refine ⟨by omega, ?_⟩
      rw [iterate_tickBlock_setPresc, State.setPresc_setPresc, hticks, Function.iterate_succ_apply]
    · have hcount : s.presc.val + 1 + n = s.presc.val + (n + 1) := by omega
      rw [clockPrescaler_of_lt (Prescaler.succ_lt_of_ne_last hlast), State.setPresc_presc] at hp ⊢
      rw [hcount] at hp ⊢
      exact ⟨hp, by rw [iterate_tickBlock_setPresc, State.setPresc_setPresc]⟩

end IdleEdges

/-- Settles O32: the row of idle edges as a row of ticks and a write of the prescaler. -/
theorem oneTickPer510Edges : Obligations.OneTickPer510Edges := by
  intro n s
  obtain ⟨p, hp, hrun⟩ := execAll_replicate_idle n s
  exact ⟨_, p, hp, execAll_replicate_tick _ s, hrun⟩

/-- Settles O41: the two counters of the iterated tick. -/
theorem dividerClosedForm : Obligations.DividerClosedForm :=
  fun n s => ⟨_, execAll_replicate_tick n s, iterate_tickBlock_tc_val n s, iterate_tickBlock_fc_toNat n s⟩

/-- Settles O42: 26 flags of 125 ticks from both counters at 0. -/
theorem controlReadyFromTick3250 : Obligations.ControlReadyFromTick3250 := by
  intro n s htc hfc
  refine ⟨_, execAll_replicate_tick n s, ?_⟩
  rw [crReadyPin_iterate_tickBlock hfc, htc, Nat.zero_add]

/-- Settles O43: the clear leaves the flag count at 0 and the sub-counter where it was. -/
theorem readyRisesAt26thFlagAfterClear : Obligations.ReadyRisesAt26thFlagAfterClear := by
  intro n s
  have hrun : execAll (.crclr :: List.replicate n .tick) s = .next (tickBlock^[n] (s.setFc 0)) :=
    (execAll_cons_of_next _ (exec_crclr s)).trans (execAll_replicate_tick n _)
  exact ⟨_, hrun, crReadyPin_iterate_tickBlock (s := s.setFc 0) rfl n⟩

/-- Settles O6: code 0 does nothing, so an edge that carries it is the prescaler's part alone. -/
theorem nopChangesNothing : Obligations.NopChangesNothing := by
  intro s
  have hop {w : CommandWord} (hw : w.toNat < 2 ^ 36) : (opField w).toNat = 0 := by
    rw [opField_toNat]
    omega
  refine ⟨exec_nop s, fun w hw => ?_, fun w w' hw => ?_⟩
  · rw [performInput_command, applyCommandWord_of_opField_eq_zero (hop hw)]
  · rw [exec_clk, exec_clk, clockEdge_valid, clockEdge_idle, applyCommandWord_of_opField_eq_zero (hop hw)]

/-- Settles O14: the write of `fc`, and the decoder on code 6. -/
theorem crclrClearsFlagCountOnly : Obligations.CrclrClearsFlagCountOnly := by
  intro s
  refine ⟨exec_crclr s, rfl, fun w hop => ?_, ?_⟩
  · rw [performInput_command, exec_crclr,
      applyCommandWord_of_opField_eq_six ((opField_toNat w).trans hop)]
  · rw [execAll_cons_of_next _ (exec_crclr s), execAll_cons_of_next _ (exec_crclr _)]
    rfl

/-- Settles O18: the state between the two parts of an edge is the one the prescaler's part leaves. -/
theorem clockEdgeTicksThenCommands : Obligations.ClockEdgeTicksThenCommands := by
  refine ⟨fun w s hw => by rw [performInput_edge, decodeStepWord_of_rst hw],
    fun valid cmd s => ⟨clockPrescaler s, ?_, ?_, exec_total _ s⟩⟩
  · split
    case isTrue hlast => exact ⟨tickBlock s, exec_tick s, clockPrescaler_of_last hlast⟩
    case isFalse hne =>
      exact ⟨_, rfl, clockPrescaler_of_lt (Prescaler.succ_lt_of_ne_last hne)⟩
  · cases valid with
    | false => rfl
    | true => exact exec_clk_valid cmd s

/-- Settles O19: the tick's sum is taken before the `SETTW` is performed, which writes `tw` alone. -/
theorem tickEdgeUsesOldTuningWord : Obligations.TickEdgeUsesOldTuningWord := by
  intro c v s hlast hm
  have hset : performInput (.command (commandWordOf 1 c v.toNat)) ((tickBlock s).setPresc 0) =
      .next (applyCommand (.settw c v) ((tickBlock s).setPresc 0)) :=
    performInput_commandWordOf (cmd := .settw c v) (op := 1) rfl _
  refine ⟨_, (exec_clk_valid_of_last hlast _).trans hset, ?_, ?_, ?_⟩
  · rw [applyCommand_acc, State.setPresc_chan, tickBlock_acc_of_ne_off hm]
  · rw [applyCommand, setTuningWord, State.chan_setTw, if_pos rfl]
  · rw [applyCommand_presc]
    rfl

/-- Settles O20: the clear is performed on the state the tick left, and keeps its sub-counter. -/
theorem clearOnTickEdgeWins : Obligations.ClearOnTickEdgeWins := by
  intro c d s hlast
  have hop : (opField (commandWordOf 6 c d.toNat)).toNat = 6 :=
    congrArg BitVec.toNat (opField_commandWordOf 6 c d)
  refine ⟨((tickBlock s).setPresc 0).setFc 0, ?_, rfl, tickBlock_tc_val s⟩
  rw [exec_clk_valid_of_last hlast, performInput_command, applyCommandWord_of_opField_eq_six hop]

/-- Settles O22: a lane reads its own channel, the mode and the ROM alone. -/
theorem tickLanesAreIndependent : Obligations.TickLanesAreIndependent := by
  intro c s s' hmode hrom hchan
  refine ⟨_, _, exec_tick s, exec_tick s', ?_⟩
  rw [tickBlock_chan, tickBlock_chan, hmode, hrom, hchan]

end Sys2Proof.Machine

/-! PROOFS. The intended host's contract (`45_param_mapper.md`): the depth map, the tuning map, the control
cycle and the block without a host.

Both depth values of R168, clamped by the host or not, store what the block's own clamp leaves of
`8 - (d >> 7)` (`depthOperand_ofInt`). The tuning map's power is rounded by a division that grows with the
reading (`roundedPower_monotone`), so its range is that of its two ends. A control cycle is one write of the
whole state (`execAll_ctrlCycle`). -/

namespace Sys2Proof.Machine

section DepthMap

/-- The block's clamp on an operand that fits 32 signed bits (R83, R126). -/
theorem depthOperand_ofInt {z : Int} (hlo : -2 ^ 31 ≤ z) (hhi : z < 2 ^ 31) :
    ((depthOperand (BitVec.ofInt 32 z)).val : Int) = max 0 (min 8 z) := by
  rw [depthOperand_val, BitVec.toInt_ofInt_eq_self (by decide) hlo hhi]

theorem depthUnclamped_eq (d : Nat) : depthUnclamped d = 8 - (d / 128 : Nat) := by
  rw [depthUnclamped, Nat.shiftRight_eq_div_pow]
  rfl

/-- The host's clamp cuts `8 - d / 128` off at 0, as natural numbers do (R168). -/
theorem clamp_depthUnclamped (d : Nat) :
    clamp (depthUnclamped d) 0 Config.dsMax = (8 - d / 128 : Nat) := by
  rw [depthUnclamped_eq, clamp, Config.dsMax]
  omega

theorem dsMap_toNat (d : Nat) : (dsMap d).toNat = 8 - d / 128 := by
  rw [dsMap, clamp_depthUnclamped, BitVec.ofInt_natCast, BitVec.toNat_ofNat]
  omega

/-- The depth a host that clamps gets stored (R126, R168). -/
theorem depthOperand_dsMap_val (d : Nat) : (depthOperand (dsMap d)).val = 8 - d / 128 := by
  rw [dsMap, clamp_depthUnclamped]
  have hclamp := depthOperand_ofInt (z := (8 - d / 128 : Nat)) (by omega) (by omega)
  omega

/-- The depth a host that does not clamp gets stored, as far as its value fits 32 signed bits (R126, R168). -/
theorem depthOperand_unclamped_val {d : Nat} (h : d / 128 ≤ 2 ^ 31 + 8) :
    (depthOperand (BitVec.ofInt 32 (8 - (d / 128 : Nat)))).val = 8 - d / 128 := by
  have hclamp := depthOperand_ofInt (z := 8 - (d / 128 : Nat)) (by omega) (by omega)
  omega

/-- The two hosts get the same depth stored (R168). -/
theorem depthOperand_unclamped_eq_dsMap {d : Nat} (h : d / 128 ≤ 2 ^ 31 + 8) :
    depthOperand (BitVec.ofInt 32 (8 - (d / 128 : Nat))) = depthOperand (dsMap d) :=
  Fin.ext ((depthOperand_unclamped_val h).trans (depthOperand_dsMap_val d).symm)

end DepthMap

/-- Settles O51: the host's clamp and the block's own leave the same depth. -/
theorem depthMapOfTheHost : Obligations.DepthMapOfTheHost := by
  intro c d s
  refine ⟨fun hd => ?_, fun hd => ⟨depthOperand (BitVec.ofInt 32 (8 - (d / 128 : Nat))), ?_, ?_⟩⟩
  · rw [dsMap_toNat]
    refine ⟨rfl, by omega, by omega, ?_⟩
    rw [exec_setds, exec_setds, depthOperand_unclamped_eq_dsMap (by omega)]
  · rw [depthOperand_unclamped_val hd]
    omega
  · rw [exec_setds]
    cases c <;> rfl

section TuningMap

/-- `a / b` rounded to the nearest integer is at most one half away from it. -/
theorem natAbs_round_sub_le {b : Nat} (hb : 0 < b) (a : Nat) :
    (2 * (((2 * a + b) / (2 * b) : Nat) : Int) * b - 2 * a).natAbs ≤ b := by
  have hdivision := Nat.div_add_mod (2 * a + b) (2 * b)
  have hrest := Nat.mod_lt (2 * a + b) (show 0 < 2 * b by omega)
  generalize (2 * a + b) / (2 * b) = q at *
  have hq : 2 * (q : Int) * b = (2 * b * q : Nat) := by push_cast; ring
  omega

/-- `round(1.02^f)` of `TW_MAP`, in exact arithmetic (R167). -/
def roundedPower (f : Nat) : Nat := (2 * 51 ^ f + 50 ^ f) / (2 * 50 ^ f)

theorem exactTwMap_eq (f : Nat) : exactTwMap f = BitVec.ofNat 32 (roundedPower f + 8192) := rfl

/-- `1.02^f` grows with `f`, and so does its rounding: the next fraction is at least the same one, with
numerator and denominator multiplied by 50. -/
theorem roundedPower_monotone : Monotone roundedPower := by
  refine monotone_nat_of_le_succ fun f => ?_
  calc roundedPower f
    _ = (2 * 51 ^ f + 50 ^ f) * 50 / (2 * 50 ^ f * 50) :=
      (Nat.mul_div_mul_right _ _ (by decide)).symm
    _ ≤ (2 * 51 ^ (f + 1) + 50 ^ (f + 1)) / (2 * 50 ^ f * 50) :=
      Nat.div_le_div_right (by rw [pow_succ, pow_succ]; omega)
    _ = roundedPower (f + 1) := by rw [roundedPower, pow_succ 50, Nat.mul_assoc 2]

theorem roundedPower_zero : roundedPower 0 = 1 := by decide

theorem roundedPower_last : roundedPower 1023 = 628023236 := by decide +kernel

theorem roundedPower_bounds {f : Nat} (hf : f ≤ 1023) :
    1 ≤ roundedPower f ∧ roundedPower f ≤ 628023236 :=
  ⟨roundedPower_zero ▸ roundedPower_monotone (Nat.zero_le f),
    roundedPower_last ▸ roundedPower_monotone hf⟩

/-- No bit of `TW_MAP` is lost in a tuning word, for a reading in range (R167). -/
theorem exactTwMap_toNat {f : Nat} (hf : f ≤ 1023) : (exactTwMap f).toNat = roundedPower f + 8192 := by
  obtain ⟨-, hmax⟩ := roundedPower_bounds hf
  rw [exactTwMap_eq, BitVec.toNat_ofNat]
  omega

end TuningMap

/-- Settles O52: the range from the two ends of the readings, the distance from the rounding division. -/
theorem tuningMapOfTheHost : Obligations.TuningMapOfTheHost := by
  intro f hf
  obtain ⟨hmin, hmax⟩ := roundedPower_bounds hf
  rw [exactTwMap_toNat hf]
  refine ⟨by omega, by omega, ?_⟩
  have hround := natAbs_round_sub_le (Nat.pow_pos (n := f) (show 0 < 50 by decide)) (51 ^ f)
  push_cast at hround ⊢
  rwa [add_sub_cancel_right]

section ControlCycle

/-- The wave select after its step, taken at a true edge (R112, R169). -/
def waveAfter (edge : Bool) (k : WaveSelect) : WaveSelect := if edge then nextWave k else k

/-- The mode after its step, taken at a true edge (R138, R169). -/
def modeAfter (edge : Bool) (m : Mode) : Mode := if edge then nextMode m else m

/-- Channel B's base level after the mode's step, taken at a true edge (R139, R169). -/
def baseAfter (edge : Bool) (m : Mode) (b : Byte) : Byte := if edge then modeBase (nextMode m) else b

theorem waveAfter_val (edge : Bool) (k : WaveSelect) :
    (waveAfter edge k).val = (k.val + if edge then 1 else 0) % 9 := by
  cases edge with
  | false => exact (Nat.mod_eq_of_lt k.isLt).symm
  | true => exact nextWave_val k

theorem modeAfter_index (edge : Bool) (m : Mode) :
    (modeAfter edge m).index.toNat = (m.index.toNat + if edge then 1 else 0) % 4 := by
  cases edge with
  | false => exact (Nat.mod_eq_of_lt m.index.isLt).symm
  | true => exact nextMode_index m

/-- A wave-select edge is a write of the wave select, of its own value where the edge is false (R169). -/
theorem execAll_stepOnEdge_wstep (edge : Bool) (c : Channel) (s : State) :
    execAll (stepOnEdge edge (.wstep c)) s = .next (s.setWs c (waveAfter edge (s.chan c).ws)) := by
  cases edge with
  | false => exact congrArg Host.Outcome.next (State.setWs_self s c).symm
  | true => rfl

/-- A mode edge is a write of the mode and of channel B's base level, of their own values where the edge is
false (R169). -/
theorem execAll_stepOnEdge_mstep (edge : Bool) (s : State) :
    execAll (stepOnEdge edge .mstep) s =
      .next ((s.setMode (modeAfter edge s.mode)).setBl .b (baseAfter edge s.mode s.chB.bl)) := by
  cases edge <;> rfl

/-- The channel writes, before the edges (R171). -/
theorem execAll_ctrlWrites (twMap : Nat → Word) (r : RawControl) (s : State) :
    execAll (ctrlWrites twMap r) s = .next
      (((((s.setFc 0).setTw .a (twMap (clampReading r.readA.freqRaw))).setDs .a
        (depthOperand (dsMap (clampReading r.readA.depthRaw)))).setTw .b
        (twMap (clampReading r.readB.freqRaw))).setDs .b
        (depthOperand (dsMap (clampReading r.readB.depthRaw)))) := rfl

/-- The mapped values and the step of one channel in a control cycle (R169, R171). -/
def ChannelRegs.controlled (twMap : Nat → Word) (r : ChannelReadings) (g : ChannelRegs) : ChannelRegs :=
  { g with
    tw := twMap (clampReading r.freqRaw)
    ds := depthOperand (dsMap (clampReading r.depthRaw))
    ws := waveAfter r.waveEdge g.ws }

/-- The state after a control cycle with no tick between its commands (R171). -/
def State.controlled (twMap : Nat → Word) (r : RawControl) (s : State) : State :=
  { s with
    chA := s.chA.controlled twMap r.readA
    chB := { s.chB.controlled twMap r.readB with bl := baseAfter r.modeEdge s.mode s.chB.bl }
    mode := modeAfter r.modeEdge s.mode
    fc := 0 }

/-- The control cycle, part by part: the channel writes, the two wave-select edges, the mode edge. -/
theorem execAll_ctrlCycle (twMap : Nat → Word) (r : RawControl) (s : State) :
    execAll (ctrlCycle twMap r) s = .next (s.controlled twMap r) := by
  simp only [ctrlCycle, List.append_eq]
  rw [execAll_append_of_next (execAll_ctrlWrites twMap r s),
    execAll_append_of_next (execAll_stepOnEdge_wstep _ .a _),
    execAll_append_of_next (execAll_stepOnEdge_wstep _ .b _), execAll_stepOnEdge_mstep]
  rfl

/-- A control cycle leaves the tick's elements alone (R35). -/
theorem controlled_sameTickOwned (twMap : Nat → Word) (r : RawControl) (s : State) :
    sameTickOwned s (s.controlled twMap r) :=
  ⟨fun c => by cases c <;> rfl, fun c => by cases c <;> rfl, rfl⟩

/-- Channel B's base level after a control cycle with a mode edge, by the number of the new mode (R139). -/
theorem controlled_base_of_modeEdge (twMap : Nat → Word) {r : RawControl} (h : r.modeEdge = true)
    (s : State) :
    (s.controlled twMap r).chB.bl.toNat = if (s.controlled twMap r).mode.index.toNat = 1 then 50
      else if (s.controlled twMap r).mode.index.toNat = 2 then 10 else 0 := by
  simp only [State.controlled, h]
  exact modeBase_toNat (nextMode s.mode)

/-- Without a mode edge channel B keeps its base level (R169). -/
theorem controlled_base_of_not_modeEdge (twMap : Nat → Word) {r : RawControl} (h : r.modeEdge = false)
    (s : State) : (s.controlled twMap r).chB.bl = s.chB.bl := by
  simp only [State.controlled, h]
  rfl

end ControlCycle

/-- Settles O53: the cycle's one write, read element by element. -/
theorem controlCycleEffect : Obligations.ControlCycleEffect := by
  intro twMap r s
  exact ⟨s.controlled twMap r, execAll_ctrlCycle twMap r s, rfl, rfl, rfl, depthOperand_dsMap_val _,
    depthOperand_dsMap_val _, waveAfter_val _ _, waveAfter_val _ _, modeAfter_index _ _, rfl,
    fun h => controlled_base_of_not_modeEdge twMap h s,
    fun h => controlled_base_of_modeEdge twMap h s, controlled_sameTickOwned twMap r s, rfl, rfl⟩

/-- Settles O29, by the law of a step that finds no input. -/
theorem freeRunWithoutInputs : Obligations.FreeRunWithoutInputs :=
  fun _ h => step_of_no_input h

end Sys2Proof.Machine

/-! PROOFS. Exceptions (`60_exceptions.md`): there are none. Every transition function is total, level by
level: an operation (`exec_total`), an input (`performInput_total`), a step (`step_total`) and so a run. -/

namespace Sys2Proof.Machine

/-- A run never stops early: what the ROM's law for runs says of completion (R180). -/
theorem run_total (n : Nat) (s : State) :
    ∃ t : State, Host.Core.run Sys2Proof.core n s = Host.Outcome.next t := by
  obtain ⟨t, hrun, -⟩ := run_keeps_rom n s
  exact ⟨t, hrun⟩

/-- Settles O31: operations by `exec_total`, inputs by what they decode to, runs by induction on their
length (in `run_keeps_rom`). -/
theorem nothingEverStops : Obligations.NothingEverStops :=
  ⟨exec_total, performInput_total, run_total⟩

end Sys2Proof.Machine

/-! PROOFS. Hazards (`70_reset_and_hazards.md`): two writes of one base level, of which the later stands. -/

namespace Sys2Proof.Machine

section BaseWrites

/-- Of two writes of one base level the later stands. -/
@[simp] theorem State.setBl_setBl (s : State) (c : Channel) (v w : Byte) :
    (s.setBl c v).setBl c w = s.setBl c w := by
  cases c <;> rfl

/-- The mode and a base level are separate elements: their writes commute. -/
theorem State.setBl_setMode (s : State) (c : Channel) (v : Byte) (m : Mode) :
    (s.setBl c v).setMode m = (s.setMode m).setBl c v := by
  cases c <;> rfl

/-- `MSTEP` discards the base level that `SETBL B` left: it restores the mode's own (R138). -/
theorem exec_mstep_setBl_b (s : State) (v : Byte) : exec .mstep (s.setBl .b v) = exec .mstep s := by
  rw [exec_mstep, exec_mstep, State.setBl_mode, State.setBl_setMode, State.setBl_setBl]

/-- `SETBL B` after `MSTEP` replaces the mode's base level by its own (R127) and keeps the new mode. -/
theorem execAll_mstep_setbl_b (v : Word) (s : State) :
    execAll [.mstep, .setbl .b v] s =
      .next ((s.setMode (nextMode s.mode)).setBl .b (baseOperand v)) := by
  rw [execAll_cons_of_next _ (exec_mstep s), execAll_cons_of_next _ (exec_setbl .b v _),
    State.setBl_setBl]
  rfl

end BaseWrites

/-- Settles O15: in each order the second write of `bl[B]` stands; the mode takes one step in both. -/
theorem laterBaseWriteWins : Obligations.LaterBaseWriteWins := by
  intro v s
  constructor
  · calc execAll [.setbl .b v, .mstep] s
        = execAll [.mstep] (s.setBl .b (baseOperand v)) := execAll_cons_of_next _ (exec_setbl .b v s)
      _ = exec .mstep (s.setBl .b (baseOperand v)) := rfl
      _ = exec .mstep s := exec_mstep_setBl_b s _
  · refine ⟨_, execAll_mstep_setbl_b v s, baseOperand_toNat v, ?_⟩
    rw [State.setBl_mode, State.setMode_mode, nextMode_index]

end Sys2Proof.Machine
